-- ==== Sys2Proof/Word.lean ====
section
/-! DEFINITION. The two bit-vector types of the machine: the code space's byte and the operand stack's word
(spec/00_scope.md R8). -/

namespace Sys2Proof

/-- An 8-bit unsigned quantity: one cell of the code buffer (R8, R51). -/
abbrev Byte := BitVec 8

/-- A Value of the operand stack: a 64-bit pattern, all 2^64 of them legal (R8, R25; VALUE_WIDTH = 64, R6). -/
abbrev Word := BitVec 64

end Sys2Proof
end

