-- ==== Sys2Proof/Config.lean ====
section
/-! DEFINITION. The implementation parameters of spec/00_scope.md R6: OPCODE_MAP, STACK_CAP, MAX_CODE_LEN and
DIV_OVF_POLICY, as one record, with the defaults of spec/92_eei_decisions.md (D1, D3, D4, D5). VALUE_WIDTH is
fixed at 64 and stands in `Word`. Nothing here changes while the machine runs. -/

namespace Sys2Proof

/-- The ten operation names that OPCODE_MAP gives a byte value to (R72). -/
inductive Opcode where
  | skip
  | pushI64
  | add
  | halt
  | sub
  | mul
  | div
  | mod
  | pop
  | swap
  deriving DecidableEq, Repr

/-- Every operation name, in the order of spec/opcode_table.json. -/
def Opcode.all : List Opcode :=
  [.skip, .pushI64, .add, .halt, .sub, .mul, .div, .mod, .pop, .swap]

/-- A value of the parameter OPCODE_MAP: the byte of each operation (R6, R72). Which values are admissible is
`OpcodeMap.wf` (R74). -/
structure OpcodeMap where
  skip : Byte
  pushI64 : Byte
  add : Byte
  halt : Byte
  sub : Byte
  mul : Byte
  div : Byte
  mod : Byte
  pop : Byte
  swap : Byte
  deriving DecidableEq, Repr

/-- The byte value that a map gives to an operation. -/
def OpcodeMap.byteOf (m : OpcodeMap) : Opcode → Byte
  | .skip => m.skip
  | .pushI64 => m.pushI64
  | .add => m.add
  | .halt => m.halt
  | .sub => m.sub
  | .mul => m.mul
  | .div => m.div
  | .mod => m.mod
  | .pop => m.pop
  | .swap => m.swap

/-- The default map of R72: PUSH_I64, ADD, HALT and DIV from the source, the six others by decision D1
(assumption 1). -/
def OpcodeMap.default : OpcodeMap where
  skip := 0x00
  pushI64 := 0x01
  add := 0x02
  halt := 0x03
  sub := 0x04
  mul := 0x05
  div := 0x06
  mod := 0x07
  pop := 0x08
  swap := 0x09

/-- DIV_OVF_POLICY (R6, D3): what DIV and MOD do at A = MIN, B = -1. -/
inductive DivOvfPolicy where
  /-- DIV gives MIN, MOD gives 0 (the default). -/
  | wrap
  /-- The step is a model fault (R207). -/
  | fault
  deriving DecidableEq, Repr

/-- The parameters the model takes (R6). A capacity of `none` is the spec's ∞. -/
structure Params where
  opcodeMap : OpcodeMap
  stackCap : Option Nat
  maxCodeLen : Option Nat
  divOvfPolicy : DivOvfPolicy
  deriving DecidableEq, Repr

/-- The defaults of R6: the machine that `Machine.step` runs (assumptions 1 to 4). -/
def Params.default : Params where
  opcodeMap := OpcodeMap.default
  stackCap := none
  maxCodeLen := none
  divOvfPolicy := .wrap

end Sys2Proof
end

