-- ==== Sys2Proof/Machine/State.lean ====
section
/-! DEFINITION. The machine's state (spec/10_state.md R21), the reasons a run fails (spec/60_exceptions.md R201), the
ways the model itself stops (R207), the outcome of LOAD (R210) and its input (spec/70_reset_and_hazards.md R232), and
the state after construction (R230). -/

namespace Sys2Proof.Machine

/-- ST, the run status (R27). Halted and Failed are terminal for the run loop. -/
inductive RunStatus where
  | continuing
  | halted
  | failed
  deriving DecidableEq, Repr

/-- FR, the failure reason: the seven values of R201 in the order of their codes. -/
inductive Reason where
  /-- NONE: the last step did not fail. -/
  | none
  /-- IP_OUT_OF_RANGE: raised by a step that starts at or past the end of the code. -/
  | ipOutOfRange
  /-- TRUNCATED_IMMEDIATE: raised by PUSH_I64 with fewer than eight bytes left. -/
  | truncatedImmediate
  /-- ILLEGAL_OPCODE: raised by a step on an opcode byte outside the map. -/
  | illegalOpcode
  /-- STACK_UNDERFLOW: raised by a pop on an empty stack. -/
  | stackUnderflow
  /-- DIV_BY_ZERO: raised by DIV with B = 0. -/
  | divByZero
  /-- MOD_BY_ZERO: raised by MOD with B = 0. -/
  | modByZero
  deriving DecidableEq, Repr

/-- The model's own faults, distinct from ST = Failed (R207). -/
inductive Fault where
  /-- Raised by DIV and MOD at A = MIN, B = -1 under DIV_OVF_POLICY = fault (R155, R156, R207). Safe: the model
  stops. Never raised under the default policy, so never by `exec` or `step`. -/
  | divOverflow
  deriving DecidableEq, Repr

/-- The model's refusals. -/
inductive Refusal where
  /-- An instruction that has no meaning in the model. No arm of `exec` answers it. Safe. -/
  | notModelled (mnemonic : String)
  /-- Raised by a push at depth STACK_CAP under a finite cap (R140, R207). Safe: the model stops. Never raised under
  the default, which is unbounded. -/
  | resourceExhausted
  /-- Raised by LOAD on a program longer than a finite MAX_CODE_LEN, for which the spec gives no load error
  (D5; assumption 3). Safe: the model stops. Never raised under the default, which is unbounded. -/
  | codeTooLong
  deriving DecidableEq, Repr

/-- The complete architectural state (R21). -/
structure State where
  /-- `Code`, the code buffer, indexed from 0 (R22). -/
  code : List Byte
  /-- `ip`, the index of the next byte to fetch: an unbounded natural number (R23, D5). -/
  ip : Nat
  /-- `S`, the operand stack, bottom first and the top last (R10, R25). -/
  stack : List Word
  /-- `G`, the globals (R26). -/
  globals : List Word
  /-- `ST` (R27). -/
  status : RunStatus
  /-- `FR` (R28). -/
  reason : Reason
  deriving DecidableEq, Repr

/-- The state after construction (R35, R230). The source gives the two empty sequences `S` and `G`; the other four
values are the spec's decision D8 (assumption 5). -/
def State.reset : State where
  code := []
  ip := 0
  stack := []
  globals := []
  status := .continuing
  reason := .none

/-- What one step answers. A runtime failure is a NEXT state with ST = Failed (R104). -/
abbrev StepOutcome := Host.Outcome State Fault Refusal

/-- The argument of LOAD: what reading the file gave, a free input of the host (R232, D10). -/
inductive LoadSource where
  /-- The file could not be opened for reading. -/
  | unreadable
  /-- The size the host reports and the bytes that the read delivered. -/
  | file (size : Nat) (data : List Byte)
  deriving DecidableEq, Repr

/-- The result of LOAD: OK or one of the seven load errors, in the order of their codes (R210). -/
inductive LoadResult where
  | ok
  | unreadable
  | tooSmall
  | badMagic
  | badVersion
  | badFlags
  | emptyCode
  | truncated
  deriving DecidableEq, Repr

end Sys2Proof.Machine
end

