-- ==== Sys2Proof/Machine/Ops.lean ====
section
/-! DEFINITION. The named operations that every instruction is written over: the primitives of
spec/00_scope.md R9. Among them are taking a failure, which is this machine's trap entry
(spec/60_exceptions.md R203), and the RUN command's clearing of the status, which is all the return from one that it
has (R206). -/

namespace Sys2Proof.Machine

/-! ## Writes to the state -/

/-- `ip <- ip + n`. -/
def State.advance (s : State) (n : Nat) : State :=
  { s with ip := s.ip + n }

/-- Writes the operand stack. -/
def State.setStack (s : State) (st : List Word) : State :=
  { s with stack := st }

/-- Writes ST and FR together: the machine never writes the one without the other (R103, R121, R240). -/
def State.setStatus (s : State) (st : RunStatus) (r : Reason) : State :=
  { s with status := st, reason := r }

/-! ## How a step ends (R9, R103) -/

/-- `raise r`: ST <- Failed, FR <- r, and nothing else. Nothing written before the raise is undone, nothing is
saved, and the machine vectors nowhere (R203, R204). -/
def raise (r : Reason) (s : State) : StepOutcome :=
  .next (s.setStatus .failed r)

/-- Normal completion: ST <- Continuing, FR <- NONE (R103). -/
def complete (s : State) : StepOutcome :=
  .next (s.setStatus .continuing .none)

/-- `halt`: ST <- Halted, FR <- NONE (R9, R182). -/
def halt (s : State) : StepOutcome :=
  .next (s.setStatus .halted .none)

/-- What RUN writes on entry, so that a machine that has halted or failed goes on where it stopped (R113, R121). There
is no return-from-trap instruction (R206). -/
def State.resume (s : State) : State :=
  s.setStatus .continuing .none

/-! ## The operand stack (R25) -/

/-- `v <- Pop()`, then `k v`. On an empty stack the step raises STACK_UNDERFLOW (R9). -/
def withPop (s : State) (k : Word → State → StepOutcome) : StepOutcome :=
  match s.stack.getLast? with
  | none => raise .stackUnderflow s
  | some v => k v (s.setStack s.stack.dropLast)

/-- The two pops of a binary operation: B is the first value popped, A the second (R11, R151). -/
def withPop2 (s : State) (k : (a b : Word) → State → StepOutcome) : StepOutcome :=
  withPop s fun b s₁ => withPop s₁ fun a s₂ => k a b s₂

/-- Whether a stack of this depth has room for a push under STACK_CAP (R140). -/
def hasRoom (cap : Option Nat) (depth : Nat) : Bool :=
  match cap with
  | none => true
  | some c => depth < c

/-- `Push(v)`, then `k`. At depth STACK_CAP the model refuses (R140, D4). -/
def withPush (p : Params) (v : Word) (s : State) (k : State → StepOutcome) : StepOutcome :=
  match hasRoom p.stackCap s.stack.length with
  | true => k (s.setStack (s.stack ++ [v]))
  | false => .refused .resourceExhausted

/-! ## The code space (R51, R52) -/

/-- `Code[i]`: `none` outside the buffer, where no byte exists (R52). -/
def codeByte (s : State) (i : Nat) : Option Byte :=
  s.code[i]?

/-- The bytes from the instruction pointer to the end of the buffer. -/
def remainingCode (s : State) : List Byte :=
  s.code.drop s.ip

/-! ### The code space as address and byte pairs

The state holds the code space as the spec gives it, a sequence of bytes whose index is the address (R22). These
definitions say that this is one canonical form of a list of cells: every address from 0 on once, with no gap. -/

/-- The cells of a code buffer, lowest address first. -/
def Memory.cells (code : List Byte) : List Host.Cell :=
  (List.range code.length).zip code

/-- The canonical form of the code space: the addresses are 0, 1, 2 and so on (R58). An address that is not listed
reads as nothing (R52), so no listed byte equals what an unlisted address reads as. -/
def Memory.wf (m : List Host.Cell) : Bool :=
  m.map Prod.fst == List.range m.length

end Sys2Proof.Machine
end

