-- ==== Sys2Proof/Machine/Operands.lean ====
section
/-! DEFINITION. The numbers behind the operands and the stack ALU: the signed reading of a word, the wrap of a result,
truncating division (spec/00_scope.md R8, spec/42_arithmetic.md R150 to R156). -/

namespace Sys2Proof.Machine

/-- MIN = -2^63 (R8). -/
def minValue : Int := -9223372036854775808

/-- MAX = 2^63 - 1 (R8). -/
def maxValue : Int := 9223372036854775807

/-- `s64(w)`: the two's-complement value of a word (R8). -/
def s64 (w : Word) : Int :=
  w.toInt

/-- `w64(n)`: the word whose value is congruent to n modulo 2^64 (R8). -/
def w64 (n : Int) : Word :=
  BitVec.ofInt 64 n

/-- `wrap(n) = ((n + 2^63) mod 2^64) - 2^63`, the reduction into the signed range (R150). -/
def wrap (n : Int) : Int :=
  (n + 9223372036854775808) % 18446744073709551616 - 9223372036854775808

/-- `tdiv(a, b)`: integer division truncating toward zero (R8). -/
def tdiv (a b : Int) : Int :=
  Int.tdiv a b

/-- `trem(a, b) = a - b * tdiv(a, b)` (R8). -/
def trem (a b : Int) : Int :=
  a - b * tdiv a b

/-- ADD's result (R152). -/
def aluAdd (a b : Word) : Word :=
  w64 (wrap (s64 a + s64 b))

/-- SUB's result, A - B (R153). -/
def aluSub (a b : Word) : Word :=
  w64 (wrap (s64 a - s64 b))

/-- MUL's result, the low 64 bits of the product (R154). -/
def aluMul (a b : Word) : Word :=
  w64 (wrap (s64 a * s64 b))

/-- DIV's result where it is representable (R155). -/
def aluDiv (a b : Word) : Word :=
  w64 (tdiv (s64 a) (s64 b))

/-- MOD's result (R156). -/
def aluMod (a b : Word) : Word :=
  w64 (trem (s64 a) (s64 b))

/-- The one pair of operands whose quotient does not fit: A = MIN, B = -1 (R155, R156, R160). -/
def divOverflows (a b : Word) : Bool :=
  s64 a == minValue && s64 b == -1

/-- A binary operation that cannot fail after its pops: pop B, pop A, push the result (R151). -/
def binaryOp (p : Params) (f : (a b : Word) → Word) (s : State) : StepOutcome :=
  withPop2 s fun a b s' => withPush p (f a b) s' complete

/-- The check order of DIV and MOD (R159): the two pops, then the zero test, then the overflow pair, then the
result. -/
def divideOp (p : Params) (byZero : Reason) (wrapped : Word) (f : (a b : Word) → Word) (s : State) : StepOutcome :=
  withPop2 s fun a b s' =>
    if s64 b = 0 then raise byZero s'
    else if divOverflows a b then
      match p.divOvfPolicy with
      | .wrap => withPush p wrapped s' complete
      | .fault => .fault .divOverflow
    else withPush p (f a b) s' complete

end Sys2Proof.Machine
end

