-- ==== Sys2Proof/Machine/Arithmetic.lean ====
section
/-! DEFINITION. The arithmetic instructions (spec/42_arithmetic.md), over the parameters and then at their defaults. Each
runs with `ip` already past the opcode byte (spec/40_engine.md R101). -/

namespace Sys2Proof.Machine

/-- ADD (R152). -/
def addWith (p : Params) (s : State) : StepOutcome :=
  binaryOp p aluAdd s

/-- SUB (R153). -/
def subWith (p : Params) (s : State) : StepOutcome :=
  binaryOp p aluSub s

/-- MUL (R154). -/
def mulWith (p : Params) (s : State) : StepOutcome :=
  binaryOp p aluMul s

/-- DIV (R155): MIN / -1 wraps to MIN under the default policy. -/
def divWith (p : Params) (s : State) : StepOutcome :=
  divideOp p .divByZero (w64 minValue) aluDiv s

/-- MOD (R156): MIN % -1 is 0 under the default policy. -/
def modWith (p : Params) (s : State) : StepOutcome :=
  divideOp p .modByZero (w64 0) aluMod s

/-- ADD at the default parameters. -/
def execAdd (s : State) : StepOutcome :=
  addWith Params.default s

/-- SUB at the default parameters. -/
def execSub (s : State) : StepOutcome :=
  subWith Params.default s

/-- MUL at the default parameters. -/
def execMul (s : State) : StepOutcome :=
  mulWith Params.default s

/-- DIV at the default parameters. -/
def execDiv (s : State) : StepOutcome :=
  divWith Params.default s

/-- MOD at the default parameters. -/
def execMod (s : State) : StepOutcome :=
  modWith Params.default s

end Sys2Proof.Machine
end

