-- ==== Sys2Proof/Machine/Control.lean ====
section
/-! DEFINITION. The control instructions (spec/43_control.md): SKIP and HALT. There is no control transfer (R180). Neither
depends on a parameter. -/

namespace Sys2Proof.Machine

/-- SKIP (R181): "No effect beyond the opcode byte already consumed." -/
def execSkip (s : State) : StepOutcome :=
  complete s

/-- HALT (R182): legal at any depth; the stack and `ip` stay. -/
def execHalt (s : State) : StepOutcome :=
  halt s

end Sys2Proof.Machine
end

