-- ==== Sys2Proof/Machine/Stack.lean ====
section
/-! DEFINITION. The stack instructions (spec/41_stack.md). Each meaning stands over the parameters, then at their defaults,
as `exec` calls it. Each runs with `ip` already past the opcode byte (spec/40_engine.md R101). -/

namespace Sys2Proof.Machine

/-- PUSH_I64 (R130). The eight immediate bytes lie at `ip`: fewer are a truncated immediate, which reads none of
them. `imm` is their little-endian value, assembled by the decoder. -/
def pushI64With (p : Params) (imm : Word) (s : State) : StepOutcome :=
  if s.code.length - s.ip < 8 then raise .truncatedImmediate s
  else withPush p imm (s.advance 8) complete

/-- POP (R134). The value is not kept. -/
def popWith (_ : Params) (s : State) : StepOutcome :=
  withPop s fun _ s' => complete s'

/-- SWAP (R136): "Pop B, pop A; push B, then push A". -/
def swapWith (p : Params) (s : State) : StepOutcome :=
  withPop2 s fun a b s' => withPush p b s' fun s'' => withPush p a s'' complete

/-- PUSH_I64 at the default parameters. -/
def execPushI64 (imm : Word) (s : State) : StepOutcome :=
  pushI64With Params.default imm s

/-- POP at the default parameters. -/
def execPop (s : State) : StepOutcome :=
  popWith Params.default s

/-- SWAP at the default parameters. -/
def execSwap (s : State) : StepOutcome :=
  swapWith Params.default s

end Sys2Proof.Machine
end

