-- ==== Sys2Proof/Syntax.lean ====
section
/-! DEFINITION. The instruction set as syntax: one constructor for each of the ten rows of
spec/opcode_table.json (spec/30_encoding.md R72). -/

namespace Sys2Proof

/-- The ten instructions, in the order of the opcode table. The only explicit operand of the machine is the
64-bit immediate of PUSH_I64 (R75); every other operand is implicit, on top of the operand stack (R20). -/
inductive Instr where
  | skip
  | pushI64 (imm : Word)
  | add
  | halt
  | sub
  | mul
  | div
  | mod
  | pop
  | swap
  deriving DecidableEq, Repr

end Sys2Proof
end

