-- ==== Sys2Proof/Machine/Dispatch.lean ====
section
/-! DEFINITION. The dispatch of spec/40_engine.md R102: each instruction's own meaning, at the default parameters. -/

namespace Sys2Proof.Machine

def exec (i : Instr) (s : State) : Host.Outcome State Fault Refusal :=
  match i with
  | .skip => Sys2Proof.Machine.execSkip s
  | .pushI64 imm => Sys2Proof.Machine.execPushI64 imm s
  | .add => Sys2Proof.Machine.execAdd s
  | .halt => Sys2Proof.Machine.execHalt s
  | .sub => Sys2Proof.Machine.execSub s
  | .mul => Sys2Proof.Machine.execMul s
  | .div => Sys2Proof.Machine.execDiv s
  | .mod => Sys2Proof.Machine.execMod s
  | .pop => Sys2Proof.Machine.execPop s
  | .swap => Sys2Proof.Machine.execSwap s

end Sys2Proof.Machine
end

