-- ==== Sys2Proof/WellFormed.lean ====
section
/-! DEFINITION. Which instructions and which parameter values are admissible: every instruction is (R75), and an
opcode map must meet the three conditions of spec/30_encoding.md R74. -/

namespace Sys2Proof

/-- Every instruction is well formed: the nine one-byte instructions have no operand field, and "every one of the
2^64 bit patterns is a legal immediate" (R75). -/
def Instr.wf : Instr → Bool
  | .skip => true
  | .pushI64 _ => true
  | .add => true
  | .halt => true
  | .sub => true
  | .mul => true
  | .div => true
  | .mod => true
  | .pop => true
  | .swap => true

/-- R74 condition 1: ten distinct byte values. A model that distrusts the source's four values keeps this
condition alone (spec/93_implementation_defined.md I2). -/
def OpcodeMap.injective (m : OpcodeMap) : Bool :=
  decide (Opcode.all.map m.byteOf).Nodup

/-- R74 condition 2: the four values the source gives. -/
def OpcodeMap.sourceValues (m : OpcodeMap) : Bool :=
  m.pushI64 == 0x01 && m.add == 0x02 && m.halt == 0x03 && m.div == 0x06

/-- R74 condition 3: the six other operations have distinct values outside 0x01, 0x02, 0x03 and 0x06. -/
def OpcodeMap.restApart (m : OpcodeMap) : Bool :=
  let rest := [m.skip, m.sub, m.mul, m.mod, m.pop, m.swap]
  decide rest.Nodup && rest.all fun b => !([0x01, 0x02, 0x03, 0x06] : List Byte).contains b

/-- A map that R74 admits. -/
def OpcodeMap.wf (m : OpcodeMap) : Bool :=
  m.injective && m.sourceValues && m.restApart

/-- Parameters are admissible when their opcode map is; every capacity and either policy is allowed (R6). -/
def Params.wf (p : Params) : Bool :=
  p.opcodeMap.wf

end Sys2Proof
end

