-- ==== Sys2Proof/Decode.lean ====
section
/-! DEFINITION. The decoder, total on any bytes and over any opcode map (spec/30_encoding.md R70 to R79), the
encoder beside it, and the byte order of the one multi-byte field (spec/20_memory.md R53). -/

namespace Sys2Proof

/-! ## Byte order (R53, R71) -/

/-- R9, R53: little-endian assembly, `b0` least significant. -/
def le64 (b0 b1 b2 b3 b4 b5 b6 b7 : Byte) : Word :=
  b7 ++ b6 ++ b5 ++ b4 ++ b3 ++ b2 ++ b1 ++ b0

/-- Byte `k` of a word: bits 8k+7 down to 8k, the field that R71 puts at offset p+1+k. -/
def wordByte (v : Word) (k : Nat) : Byte :=
  v.extractLsb' (8 * k) 8

/-- The eight immediate bytes of PUSH_I64 in code order (R71). -/
def le64Bytes (v : Word) : List Byte :=
  [wordByte v 0, wordByte v 1, wordByte v 2, wordByte v 3,
   wordByte v 4, wordByte v 5, wordByte v 6, wordByte v 7]

/-! ## Opcodes -/

/-- R73: the inverse of OPCODE_MAP on one byte; `none` is Illegal. The opcode byte alone is looked at. -/
def decodeOpcode (m : OpcodeMap) (b : Byte) : Option Opcode :=
  Opcode.all.find? fun o => m.byteOf o == b

/-- R73, R79: the length in bytes that an opcode fixes. -/
def Opcode.length : Opcode → Nat
  | .pushI64 => 9
  | .skip | .add | .halt | .sub | .mul | .div | .mod | .pop | .swap => 1

/-- The operation of an instruction. -/
def Instr.opcode : Instr → Opcode
  | .skip => .skip
  | .pushI64 _ => .pushI64
  | .add => .add
  | .halt => .halt
  | .sub => .sub
  | .mul => .mul
  | .div => .div
  | .mod => .mod
  | .pop => .pop
  | .swap => .swap

/-! ## The decoder -/

/-- What the bytes at the instruction pointer are. -/
inductive Decoded where
  /-- An instruction, and the bytes after it. -/
  | instr (i : Instr) (rest : List Byte)
  /-- The opcode byte is outside the opcode map (R77). -/
  | illegal (op : Byte)
  /-- PUSH_I64's opcode with fewer than eight bytes after it (R130). -/
  | truncated
  /-- There is no opcode byte: the end of the code buffer (R52, R100). -/
  | endOfCode
  deriving DecidableEq, Repr

/-- The immediate of PUSH_I64, checked as one unit: all eight bytes are read or none (R56, R75). -/
def decodeImmediate : List Byte → Decoded
  | b0 :: b1 :: b2 :: b3 :: b4 :: b5 :: b6 :: b7 :: rest =>
    .instr (.pushI64 (le64 b0 b1 b2 b3 b4 b5 b6 b7)) rest
  | _ => .truncated

/-- Decoding under an opcode map (R70 to R79). -/
def decodeWith (m : OpcodeMap) : List Byte → Decoded
  | [] => .endOfCode
  | b :: rest =>
    match decodeOpcode m b with
    | none => .illegal b
    | some .pushI64 => decodeImmediate rest
    | some .skip => .instr .skip rest
    | some .add => .instr .add rest
    | some .halt => .instr .halt rest
    | some .sub => .instr .sub rest
    | some .mul => .instr .mul rest
    | some .div => .instr .div rest
    | some .mod => .instr .mod rest
    | some .pop => .instr .pop rest
    | some .swap => .instr .swap rest

/-- Decoding under the default map of R72. -/
def decode (bytes : List Byte) : Decoded :=
  decodeWith OpcodeMap.default bytes

/-! ## The encoder -/

/-- The bytes after the opcode byte: format OP has none, format OP_I64 eight (R70, R71). -/
def Instr.operandBytes : Instr → List Byte
  | .pushI64 v => le64Bytes v
  | .skip | .add | .halt | .sub | .mul | .div | .mod | .pop | .swap => []

/-- Encoding under an opcode map (R71, R72, R75). -/
def encodeWith (m : OpcodeMap) (i : Instr) : List Byte :=
  m.byteOf i.opcode :: i.operandBytes

/-- Encoding under the default map of R72. -/
def encode (i : Instr) : List Byte :=
  encodeWith OpcodeMap.default i

/-- R80: "Assembly is the concatenation of each statement's encoding." -/
def encodeProgramWith (m : OpcodeMap) (is : List Instr) : List Byte :=
  is.flatMap (encodeWith m)

/-- A program's code under the default map. -/
def encodeProgram (is : List Instr) : List Byte :=
  encodeProgramWith OpcodeMap.default is

/-! ## Opcode-table words -/

/-- The bytes of a table word in index order, the first byte least significant, as many as the longest
instruction has (nine); every bit from `nbits` on is zero. -/
def tableBytes (nbits w : Nat) : List Byte :=
  let v := w % 2 ^ nbits
  [BitVec.ofNat 8 v, BitVec.ofNat 8 (v / 256), BitVec.ofNat 8 (v / 256 ^ 2), BitVec.ofNat 8 (v / 256 ^ 3),
   BitVec.ofNat 8 (v / 256 ^ 4), BitVec.ofNat 8 (v / 256 ^ 5), BitVec.ofNat 8 (v / 256 ^ 6),
   BitVec.ofNat 8 (v / 256 ^ 7), BitVec.ofNat 8 (v / 256 ^ 8)]

/-- The instruction that the decoder reads from an opcode-table word. -/
def decodeTableWord (nbits w : Nat) : Option Instr :=
  match decode (tableBytes nbits w) with
  | .instr i _ => some i
  | .illegal _ => none
  | .truncated => none
  | .endOfCode => none

end Sys2Proof
end

