-- ==== Sys2Proof/Machine/Fetch.lean ====
section
/-! DEFINITION. The fetch and decode half of a step: the range check, the advance past the opcode byte and the two failures
that end a step before its instruction runs (spec/40_engine.md R100 to R102). -/

namespace Sys2Proof.Machine

/-- What fetching at `ip` gives: the step has ended, or an instruction runs in a state whose `ip` is already past the
opcode byte. -/
inductive Fetched where
  | ended (o : StepOutcome)
  | run (i : Instr) (s : State)

/-- R100 to R102. There is no opcode byte exactly when `ip` is at or past the end: IP_OUT_OF_RANGE, with nothing
changed. Every other failure leaves `ip` one past the opcode byte (R101). A truncated immediate stops here because
there is no instruction to run; PUSH_I64's meaning has the same check (R130). -/
def fetchWith (m : OpcodeMap) (s : State) : Fetched :=
  match decodeWith m (remainingCode s) with
  | .endOfCode => .ended (raise .ipOutOfRange s)
  | .illegal _ => .ended (raise .illegalOpcode (s.advance 1))
  | .truncated => .ended (raise .truncatedImmediate (s.advance 1))
  | .instr i _ => .run i (s.advance 1)

/-- The fetch under the default opcode map. -/
def fetch (s : State) : Fetched :=
  fetchWith OpcodeMap.default s

/-- The code buffer with some bytes written over it from an index on; a gap before them is filled with zero bytes.
No instruction does this (R22): it places an instruction for `withFetchWord`. -/
def overwriteCode (code : List Byte) (idx : Nat) (bytes : List Byte) : List Byte :=
  code.take idx ++ List.replicate (idx - code.length) 0 ++ bytes ++ code.drop (idx + bytes.length)

end Sys2Proof.Machine
end

