-- ==== Sys2Proof/Machine/Step.lean ====
section
/-! DEFINITION. The whole step of spec/40_engine.md R103, and the placing of one instruction where it fetches. -/

namespace Sys2Proof.Machine

/-- One step (R103): fetch and decode, then run the instruction. ST is not tested (R100, R122). -/
def step (s : State) : Host.Outcome State Fault Refusal :=
  match fetch s with
  | .ended o => o
  | .run i s' => exec i s'

/-- `s` with an opcode-table word stored at `ip` in the code buffer. It stands for the load of a program from outside
(assumption 10). -/
def State.withFetchWord (s : State) (nbits w : Nat) : State :=
  { s with code := overwriteCode s.code s.ip (tableBytes nbits w) }

end Sys2Proof.Machine
end

