-- ==== Sys2Proof/Machine/Load.lean ====
section
/-! DEFINITION. LOAD: the program container, its validation, and the load reset (spec/70_reset_and_hazards.md R230 to R242). -/

namespace Sys2Proof.Machine

/-- R232: the delivered bytes are a prefix of the file, so there are at most as many as the size says. -/
def LoadSource.wf : LoadSource → Bool
  | .unreadable => true
  | .file size data => data.length ≤ size

/-- R235. -/
def magicBytes : List Byte := [0x7A, 0x70, 0x70, 0x00]

/-- R236: version 1, the only one recognised. -/
def versionBytes : List Byte := [0x01, 0x00]

/-- R237: no flag is defined. -/
def flagBytes : List Byte := [0x00, 0x00]

/-- A container of version 1 for some code (R80, R238). -/
def container (code : List Byte) : List Byte :=
  magicBytes ++ versionBytes ++ flagBytes ++ code

/-- The checks of LOAD in order, the first failure winning (R212, R233 to R239). -/
def validate : LoadSource → LoadResult
  | .unreadable => .unreadable
  | .file size data =>
    if size < 8 then .tooSmall
    else if data.length < 8 then .truncated
    else if data.take 4 ≠ magicBytes then .badMagic
    else if (data.drop 4).take 2 ≠ versionBytes then .badVersion
    else if (data.drop 6).take 2 ≠ flagBytes then .badFlags
    else if size - 8 = 0 then .emptyCode
    else if data.length - 8 < size - 8 then .truncated
    else .ok

/-- `data[8 .. size-1]`, the bytecode section of a file (R238). -/
def bytecodeSection : LoadSource → List Byte
  | .unreadable => []
  | .file size data => (data.drop 8).take (size - 8)

/-- `load_reset(b)` (R240): every field is written, in one change, whatever the state was (R241). The values of ST and FR
are the spec's decision D13 (assumption 6). -/
def loadReset (b : List Byte) : State where
  code := b
  ip := 0
  stack := []
  globals := []
  status := .continuing
  reason := .none

/-- Whether MAX_CODE_LEN admits a code of this length (R51, D5). -/
def codeFits (cap : Option Nat) (len : Nat) : Bool :=
  match cap with
  | none => true
  | some c => len ≤ c

/-- LOAD (R238): the state after it and its result. A failed LOAD changes nothing (R211). A program longer than a
finite MAX_CODE_LEN is refused (assumption 3). -/
def loadWith (p : Params) (src : LoadSource) (s : State) : Host.Outcome (State × LoadResult) Fault Refusal :=
  match validate src with
  | .ok =>
    if codeFits p.maxCodeLen (bytecodeSection src).length then .next (loadReset (bytecodeSection src), .ok)
    else .refused .codeTooLong
  | e => .next (s, e)

/-- LOAD at the default parameters. -/
def load (src : LoadSource) (s : State) : Host.Outcome (State × LoadResult) Fault Refusal :=
  loadWith Params.default src s

end Sys2Proof.Machine
end

