-- ==== Sys2Proof/Machine/Assembler.lean ====
section
/-! DEFINITION. The assembler syntax of spec/30_encoding.md R80 (decision D15), as a total function from text to instructions,
to code and to a LOAD file, with a printer beside it. A text is a list of characters. -/

namespace Sys2Proof.Machine

/-! ## From text to statements -/

/-- The characters between words inside a statement: space, tab and carriage return (assumption 11). -/
def isBlank (c : Char) : Bool :=
  c == ' ' || c == '\t' || c == '\r'

/-- Cuts a text at every character that `sep` holds of; the separators are dropped. -/
def cutAt (sep : Char → Bool) : List Char → List (List Char)
  | [] => [[]]
  | c :: cs =>
    if sep c then [] :: cutAt sep cs
    else
      match cutAt sep cs with
      | [] => [[c]]
      | w :: ws => (c :: w) :: ws

/-- The words of a statement. -/
def wordsOf (cs : List Char) : List (List Char) :=
  (cutAt isBlank cs).filter fun w => !w.isEmpty

/-- R80: a `#` starts a comment that runs to the end of the line. -/
def dropComment (line : List Char) : List Char :=
  line.takeWhile fun c => c != '#'

/-- R80: statements are separated by newlines or `;`. One with no word is skipped (assumption 11). -/
def statementsOf (text : List Char) : List (List (List Char)) :=
  ((cutAt (· == '\n') text).flatMap fun line => (cutAt (· == ';') (dropComment line)).map wordsOf).filter
    fun s => !s.isEmpty

/-! ## Operands -/

/-- The value of a decimal digit. -/
def decDigit? (c : Char) : Option Nat :=
  if '0' ≤ c ∧ c ≤ '9' then some (c.toNat - '0'.toNat) else none

/-- The value of a hexadecimal digit, of either case (assumption 11). -/
def hexDigit? (c : Char) : Option Nat :=
  if '0' ≤ c ∧ c ≤ '9' then some (c.toNat - '0'.toNat)
  else if 'a' ≤ c ∧ c ≤ 'f' then some (c.toNat - 'a'.toNat + 10)
  else if 'A' ≤ c ∧ c ≤ 'F' then some (c.toNat - 'A'.toNat + 10)
  else none

/-- Reads digits in a base onto an accumulator, most significant first. -/
def digitsFrom (digit? : Char → Option Nat) (base : Nat) : Nat → List Char → Option Nat
  | acc, [] => some acc
  | acc, c :: cs =>
    match digit? c with
    | some d => digitsFrom digit? base (acc * base + d) cs
    | none => none

/-- A decimal magnitude of at least one digit. -/
def decimal? : List Char → Option Nat
  | [] => none
  | c :: cs => digitsFrom decDigit? 10 0 (c :: cs)

/-- R80: the signed decimal operand, in MIN..MAX. -/
def inRange? (n : Int) : Option Word :=
  if minValue ≤ n ∧ n ≤ maxValue then some (w64 n) else none

/-- R80: `0x` and 1 to 16 hexadecimal digits give the bit pattern directly; anything else is a signed decimal
integer. -/
def operand? : List Char → Option Word
  | '0' :: 'x' :: hs =>
    if 1 ≤ hs.length ∧ hs.length ≤ 16 then (digitsFrom hexDigit? 16 0 hs).map (BitVec.ofNat 64) else none
  | '-' :: ds => (decimal? ds).bind fun n => inRange? (-(n : Int))
  | ds => (decimal? ds).bind fun n => inRange? n

/-! ## Statements -/

/-- The mnemonic of an operation, in upper case (R80). -/
def mnemonicOf : Opcode → List Char
  | .skip => ['S', 'K', 'I', 'P']
  | .pushI64 => ['P', 'U', 'S', 'H', '_', 'I', '6', '4']
  | .add => ['A', 'D', 'D']
  | .halt => ['H', 'A', 'L', 'T']
  | .sub => ['S', 'U', 'B']
  | .mul => ['M', 'U', 'L']
  | .div => ['D', 'I', 'V']
  | .mod => ['M', 'O', 'D']
  | .pop => ['P', 'O', 'P']
  | .swap => ['S', 'W', 'A', 'P']

/-- The operation that a mnemonic names. -/
def mnemonic? (w : List Char) : Option Opcode :=
  Opcode.all.find? fun o => mnemonicOf o == w

/-- The instruction of an operation and its operand words: PUSH_I64 takes one, the others none (R80). -/
def instrOf? : Opcode → List (List Char) → Option Instr
  | .pushI64, [w] => (operand? w).map .pushI64
  | .skip, [] => some .skip
  | .add, [] => some .add
  | .halt, [] => some .halt
  | .sub, [] => some .sub
  | .mul, [] => some .mul
  | .div, [] => some .div
  | .mod, [] => some .mod
  | .pop, [] => some .pop
  | .swap, [] => some .swap
  | _, _ => none

/-- One statement: a mnemonic and its operands. -/
def statement? : List (List Char) → Option Instr
  | [] => none
  | w :: ops => (mnemonic? w).bind fun o => instrOf? o ops

/-- Every statement, or none when one of them is not of the syntax. -/
def statements? : List (List (List Char)) → Option (List Instr)
  | [] => some []
  | s :: ss => (statement? s).bind fun i => (statements? ss).map (i :: ·)

/-! ## The assembler -/

/-- The instructions of a text. -/
def parseProgram (text : List Char) : Option (List Instr) :=
  statements? (statementsOf text)

/-- The code of a text: the concatenation of its statements' encodings (R80). -/
def assemble (text : List Char) : Option (List Byte) :=
  (parseProgram text).map encodeProgram

/-- The file for LOAD: the 8-byte header and the code (R80, R238). -/
def assembleFile (text : List Char) : Option (List Byte) :=
  (assemble text).map container

/-! ## The printer -/

/-- The hexadecimal digit of a value below 16. -/
def hexChar (n : Nat) : Char :=
  if n < 10 then Char.ofNat ('0'.toNat + n) else Char.ofNat ('A'.toNat + (n - 10))

/-- The lowest `k` hexadecimal digits of a number, most significant first. -/
def hexDigits : Nat → Nat → List Char
  | 0, _ => []
  | k + 1, n => hexDigits k (n / 16) ++ [hexChar (n % 16)]

/-- One instruction as a statement, its immediate as a bit pattern of 16 digits. -/
def statementText (i : Instr) : List Char :=
  mnemonicOf i.opcode ++
    match i with
    | .pushI64 v => ' ' :: '0' :: 'x' :: hexDigits 16 v.toNat
    | .skip | .add | .halt | .sub | .mul | .div | .mod | .pop | .swap => []

/-- A program, one statement a line. -/
def printProgram (is : List Instr) : List Char :=
  is.flatMap fun i => statementText i ++ ['\n']

end Sys2Proof.Machine
end

