-- ==== Sys2Proof/Machine/Flags.lean ====
section
/-! DEFINITION. The host-readable views of ST and FR: the codes of spec/60_exceptions.md R201 and R210, the STATUS register
of spec/10_state.md R29 and the flags of R30. There is no overflow flag (R31), and no instruction reads any of
these. -/

namespace Sys2Proof.Machine

/-- STATUS[1:0] for each run status (R29). -/
def RunStatus.code : RunStatus → BitVec 2
  | .continuing => 0b00
  | .halted => 0b01
  | .failed => 0b10

/-- The reason codes of R201, as STATUS[6:4] holds them (R29). -/
def Reason.code : Reason → BitVec 3
  | .none => 0
  | .ipOutOfRange => 1
  | .truncatedImmediate => 2
  | .illegalOpcode => 3
  | .stackUnderflow => 4
  | .divByZero => 5
  | .modByZero => 6

/-- The load-error codes of R210. -/
def LoadResult.code : LoadResult → Nat
  | .ok => 0
  | .unreadable => 1
  | .tooSmall => 2
  | .badMagic => 3
  | .badVersion => 4
  | .badFlags => 5
  | .emptyCode => 6
  | .truncated => 7

/-- The STATUS image of ST and FR: bit 7 reserved, FR in bits 6 to 4, bits 3 and 2 reserved, ST in bits 1 and 0
(R29). -/
def statusImage (st : RunStatus) (r : Reason) : BitVec 8 :=
  0#1 ++ r.code ++ 0#2 ++ st.code

/-- The STATUS register, as READ gives it to the host (R29, R120). -/
def statusRegister (s : State) : BitVec 8 :=
  statusImage s.status s.reason

/-- Which images STATUS can hold: the reserved ST and FR encodings and the reserved bits make one ill formed (R29,
spec/93_implementation_defined.md I8). -/
def statusImageWf (b : BitVec 8) : Bool :=
  b.extractLsb' 0 2 != 0b11 && b.extractLsb' 2 2 == 0 && b.extractLsb' 4 3 != 7 && b.extractLsb' 7 1 == 0

/-- UF, stack underflow (R30). -/
def flagUF (s : State) : Bool :=
  s.reason == .stackUnderflow

/-- DZ_DIV, division by zero (R30). -/
def flagDzDiv (s : State) : Bool :=
  s.reason == .divByZero

/-- DZ_MOD, modulo by zero (R30). -/
def flagDzMod (s : State) : Bool :=
  s.reason == .modByZero

/-- DZ: a zero divisor in either instruction (R30). -/
def flagDZ (s : State) : Bool :=
  s.reason == .divByZero || s.reason == .modByZero

end Sys2Proof.Machine
end

