-- ==== Sys2Proof/Machine/Parametric.lean ====
section
/-! DEFINITION. The same machine at any value of the parameters of spec/00_scope.md R6. `exec` and `step` are this machine at
the defaults (Sys2Proof/Laws/Step.lean proves it). Only here are the model-only outcomes of R207 reached. -/

namespace Sys2Proof.Machine

/-- The dispatch of R102 at any parameters. -/
def execWith (p : Params) (i : Instr) (s : State) : StepOutcome :=
  match i with
  | .skip => execSkip s
  | .pushI64 imm => pushI64With p imm s
  | .add => addWith p s
  | .halt => execHalt s
  | .sub => subWith p s
  | .mul => mulWith p s
  | .div => divWith p s
  | .mod => modWith p s
  | .pop => popWith p s
  | .swap => swapWith p s

/-- The step of R103 at any parameters. -/
def stepWith (p : Params) (s : State) : StepOutcome :=
  match fetchWith p.opcodeMap s with
  | .ended o => o
  | .run i s' => execWith p i s'

end Sys2Proof.Machine
end

