-- ==== Sys2Proof/Machine/HostInterface.lean ====
section
/-! DEFINITION. The run loop (spec/40_engine.md R110 to R114) and the four host commands (R120 to R124). One command is a
function of the state, so commands never overlap (R252). -/

namespace Sys2Proof.Machine

/-! ## The run loop -/

/-- `while ST = Continuing: step()`, for at most `fuel` steps of the given machine (R110). -/
def runLoop (stp : State → StepOutcome) : Nat → State → StepOutcome
  | 0, s => .next s
  | fuel + 1, s =>
    match s.status with
    | .continuing =>
      match stp s with
      | .next s' => runLoop stp fuel s'
      | .fault f => .fault f
      | .refused r => .refused r
    | .halted => .next s
    | .failed => .next s

/-- The most steps that a run from this state can take: len(Code) - ip + 1 (R111). -/
def runBound (s : State) : Nat :=
  s.code.length - s.ip + 1

/-- RUN (R121): ST <- Continuing, FR <- NONE, then the loop. The bound of R111 is the fuel, so the loop always ends
by its own test. -/
def runBy (stp : State → StepOutcome) (s : State) : StepOutcome :=
  runLoop stp (runBound s) s.resume

/-- RUN at the default parameters. -/
def run (s : State) : StepOutcome :=
  runBy step s

/-- RUN at any parameters. -/
def runWith (p : Params) (s : State) : StepOutcome :=
  runBy (stepWith p) s

/-! ## Commands -/

/-- What READ is asked for: the state tuple or the STATUS register (R120). -/
inductive ReadPort where
  | tuple
  | status
  deriving DecidableEq, Repr

/-- The host commands (R120). There is no abort (R124). -/
inductive Command where
  | load (src : LoadSource)
  | run
  | step
  | read (what : ReadPort)
  deriving DecidableEq, Repr

/-- What a command returns to the host (R120). -/
inductive Reply where
  /-- LOAD's result. -/
  | loaded (r : LoadResult)
  /-- RUN and STEP return nothing; the host reads the state afterwards. -/
  | nothing
  /-- READ's tuple `(Code, ip, S, G, ST, FR)`. -/
  | tuple (s : State)
  /-- READ's STATUS register. -/
  | status (image : BitVec 8)
  deriving DecidableEq, Repr

/-- A state and an empty reply, from what a step or a run answers. -/
def silently : StepOutcome → Host.Outcome (State × Reply) Fault Refusal
  | .next s => .next (s, .nothing)
  | .fault f => .fault f
  | .refused r => .refused r

/-- LOAD as a command, from what `loadWith` answers. -/
def loadReply : Host.Outcome (State × LoadResult) Fault Refusal → Host.Outcome (State × Reply) Fault Refusal
  | .next (s, r) => .next (s, .loaded r)
  | .fault f => .fault f
  | .refused r => .refused r

/-- One host command at any parameters (R120 to R123). -/
def commandWith (p : Params) (c : Command) (s : State) : Host.Outcome (State × Reply) Fault Refusal :=
  match c with
  | .load src => loadReply (loadWith p src s)
  | .run => silently (runWith p s)
  | .step => silently (stepWith p s)
  | .read .tuple => .next (s, .tuple s)
  | .read .status => .next (s, .status (statusRegister s))

/-- One host command at the default parameters. -/
def command (c : Command) (s : State) : Host.Outcome (State × Reply) Fault Refusal :=
  match c with
  | .load src => loadReply (load src s)
  | .run => silently (run s)
  | .step => silently (step s)
  | .read .tuple => .next (s, .tuple s)
  | .read .status => .next (s, .status (statusRegister s))

end Sys2Proof.Machine
end

