-- ==== Sys2Proof/Safety.lean ====
section
/-! DEFINITION. What the claims are stated in terms of: the invariant of the state, the states that host commands reach, the
next state of an outcome, and how a run ends. -/

namespace Sys2Proof.Machine

/-- The next state of an outcome, if it has one. -/
def nextState? : StepOutcome → Option State
  | .next s => some s
  | .fault _ => none
  | .refused _ => none

/-- The invariant of every reachable state: `ip` lies in 0 .. len(Code) (R23), `G` is empty (R26), and FR is NONE exactly
when ST is not Failed (R28). -/
abbrev State.Inv (s : State) : Prop :=
  s.ip ≤ s.code.length ∧ s.globals = [] ∧ (s.reason = .none ↔ s.status ≠ .failed)

/-- The states that some sequence of host commands reaches from construction (R120, R230). -/
inductive Reachable : State → Prop where
  | construction : Reachable State.reset
  | command (c : Command) {s s' : State} {r : Reply} :
      Reachable s → command c s = .next (s', r) → Reachable s'

/-- A safe step: the machine answers a state, never a fault or a refusal (R104). -/
def SafeStep (s : State) : Prop :=
  ∃ s', step s = .next s'

/-- The final observation of a run: `(ST, FR, ip, S)` (R114, D24). -/
def observation (s : State) : RunStatus × Reason × Nat × List Word :=
  (s.status, s.reason, s.ip, s.stack)

/-- A run from `s` ends, in the sense of R114, in `s'`. -/
def RunEndsIn (s s' : State) : Prop :=
  run s = .next s' ∧ s'.status ≠ .continuing

end Sys2Proof.Machine
end

