-- ==== Sys2Proof/Certificates/Slice0/Obligations.lean ====
section
/-! DEFINITION. The statements for the provers. Numbers written "assumption n" are notes/assumptions/n.md. -/

open Sys2Proof Sys2Proof.Machine

/-! ## Encoding (spec/30_encoding.md) -/

/-- The ten opcode bytes of section 2 and the two worked immediates of section 6, each with bytes after it. The values of
SKIP, SUB, MUL, MOD, POP and SWAP are decision D1 (assumption 1). -/
def Obligations.OpcodeBytesDecode : Prop :=
  ∀ rest : List Byte,
    decode (0x00 :: rest) = .instr .skip rest ∧
    decode (0x01 :: 0xF9 :: 0xFF :: 0xFF :: 0xFF :: 0xFF :: 0xFF :: 0xFF :: 0xFF :: rest) =
      .instr (.pushI64 (BitVec.ofInt 64 (-7))) rest ∧
    decode (0x01 :: 0x08 :: 0x07 :: 0x06 :: 0x05 :: 0x04 :: 0x03 :: 0x02 :: 0x01 :: rest) =
      .instr (.pushI64 0x0102030405060708) rest ∧
    decode (0x02 :: rest) = .instr .add rest ∧
    decode (0x03 :: rest) = .instr .halt rest ∧
    decode (0x04 :: rest) = .instr .sub rest ∧
    decode (0x05 :: rest) = .instr .mul rest ∧
    decode (0x06 :: rest) = .instr .div rest ∧
    decode (0x07 :: rest) = .instr .mod rest ∧
    decode (0x08 :: rest) = .instr .pop rest ∧
    decode (0x09 :: rest) = .instr .swap rest

/-- The decoder on the opcode byte: the inverse of any injective OPCODE_MAP (condition 1 of the admissible maps, which is all
that it needs), a function of that byte alone, with the two lengths, and total: a legal byte with its operand bytes gives an
instruction of its operation (R73). That PUSH_I64's byte with fewer than eight bytes after it gives none is the model's reading of
R130 (assumption 12). -/
def Obligations.DecodingIsTheInverseOpcodeMap : Prop :=
  ∀ m : OpcodeMap, m.injective = true → ∀ b : Byte,
    (∀ o : Opcode, decodeOpcode m b = some o ↔ m.byteOf o = b) ∧
    (decodeOpcode m b = none ↔ ∀ o : Opcode, m.byteOf o ≠ b) ∧
    (∀ rest : List Byte,
      (decodeOpcode m b = none → decodeWith m (b :: rest) = .illegal b) ∧
      (∀ o : Opcode, decodeOpcode m b = some o → o ≠ .pushI64 ∨ 8 ≤ rest.length →
        ∃ (i : Instr) (rest' : List Byte), decodeWith m (b :: rest) = .instr i rest' ∧ i.opcode = o) ∧
      (∀ (i : Instr) (rest' : List Byte), decodeWith m (b :: rest) = .instr i rest' →
        decodeOpcode m b = some i.opcode ∧ rest.length + 1 = i.opcode.length + rest'.length) ∧
      (decodeWith m (b :: rest) = .truncated ↔ decodeOpcode m b = some .pushI64 ∧ rest.length < 8)) ∧
    (∀ o : Opcode, o.length = if o = .pushI64 then 9 else 1)

/-- Decoding an encoded instruction gives it back, under every injective opcode map (so under every admissible one), whatever
bytes follow, with every immediate. -/
def Obligations.DecodeInvertsEncode : Prop :=
  ∀ m : OpcodeMap, m.injective = true → ∀ i : Instr, i.wf = true → ∀ rest : List Byte,
    decodeWith m (encodeWith m i ++ rest) = .instr i rest

/-- An instruction has one encoding: bytes that decode to it are its encoding. -/
def Obligations.EncodeInvertsDecode : Prop :=
  ∀ (m : OpcodeMap) (bytes : List Byte) (i : Instr) (rest : List Byte),
    decodeWith m bytes = .instr i rest → bytes = encodeWith m i ++ rest

/-- A whole program reads back from its code, instruction after instruction, under every injective map: no byte of an
immediate is taken for an opcode (R76, derived there). -/
def Obligations.ProgramCodeReadsBack : Prop :=
  ∀ m : OpcodeMap, m.injective = true → ∀ before after : List Instr, ∀ i : Instr,
    decodeWith m ((encodeProgramWith m (before ++ i :: after)).drop (encodeProgramWith m before).length) =
      .instr i (encodeProgramWith m after)

/-- Under the default map exactly the bytes from 0x0A on are illegal (R74's last sentence, derived there; decision D1,
assumption 1). -/
def Obligations.IllegalBytesOfDefaultMap : Prop :=
  ∀ (b : Byte) (rest : List Byte), decode (b :: rest) = .illegal b ↔ 10 ≤ b.toNat

/-- The immediate is little-endian two's complement: the byte at the lowest address is the least significant. -/
def Obligations.ImmediateIsLittleEndian : Prop :=
  ∀ (m : OpcodeMap), m.injective = true → ∀ (b0 b1 b2 b3 b4 b5 b6 b7 : Byte) (rest : List Byte),
    ∃ v : Word,
      decodeWith m (m.pushI64 :: b0 :: b1 :: b2 :: b3 :: b4 :: b5 :: b6 :: b7 :: rest) = .instr (.pushI64 v) rest ∧
      v = b7 ++ b6 ++ b5 ++ b4 ++ b3 ++ b2 ++ b1 ++ b0 ∧
      v.toNat = b0.toNat + 2 ^ 8 * b1.toNat + 2 ^ 16 * b2.toNat + 2 ^ 24 * b3.toNat + 2 ^ 32 * b4.toNat +
        2 ^ 40 * b5.toNat + 2 ^ 48 * b6.toNat + 2 ^ 56 * b7.toNat ∧
      s64 v = (v.toNat : Int) - (if b7.toNat < 128 then 0 else 2 ^ 64)

/-! ## The step (spec/40_engine.md) -/

/-- A step runs the instruction that the bytes at `ip` decode to, in the state whose `ip` is past the opcode byte. -/
def Obligations.StepRunsDecodedInstruction : Prop :=
  ∀ (s : State) (i : Instr) (rest : List Byte),
    decode (s.code.drop s.ip) = .instr i rest → step s = exec i { s with ip := s.ip + 1 }

/-- The range check is the step's only precondition: past the end the step fails with nothing else changed, and what
ST and FR hold makes no difference to any step. -/
def Obligations.RangeCheckIsTheOnlyPrecondition : Prop :=
  (∀ s : State, s.code.length ≤ s.ip →
    step s = .next { s with status := .failed, reason := .ipOutOfRange }) ∧
  (∀ s s' : State, s.ip < s.code.length → step s = .next s' → s'.reason ≠ .ipOutOfRange ∧ s.ip < s'.ip) ∧
  ∀ (s : State) (ru : RunStatus) (r : Reason), step { s with status := ru, reason := r } = step s

/-- Every byte outside the opcode map, whatever the map, behaves identically: ILLEGAL_OPCODE, with `ip` one past it and nothing else
changed; and no other step raises that reason. -/
def Obligations.ByteOutsideTheMapIsIllegal : Prop :=
  ∀ (p : Params) (s : State),
    (∀ b : Byte, codeByte s s.ip = some b → (∀ o : Opcode, p.opcodeMap.byteOf o ≠ b) →
      stepWith p s = .next { s with ip := s.ip + 1, status := .failed, reason := .illegalOpcode }) ∧
    ∀ s' : State, stepWith p s = .next s' → s'.reason = .illegalOpcode →
      ∃ b : Byte, codeByte s s.ip = some b ∧ ∀ o : Opcode, p.opcodeMap.byteOf o ≠ b

/-- Every failure is absorbed: each step of the machine answers a state, and a failure is a value of that state, ST = Failed
with its reason (R104). That a step answers a state at any depth of the stack, and for DIV and MOD of MIN by -1, rests on the
default parameters: no capacity, which is decision D4 (assumption 2), and wrap, which is decision D3 (assumption 4). -/
def Obligations.EveryFailureIsAbsorbedByTheStep : Prop :=
  ∀ s : State, ∃ s' : State, step s = .next s' ∧ (s'.status = .failed ↔ s'.reason ≠ .none)

/-- The frame of every instruction and of every step at any parameters: the code buffer and every byte read from it, and the
globals, stay. -/
def Obligations.CodeAndGlobalsAreNeverWritten : Prop :=
  (∀ (i : Instr) (s s' : State), exec i s = .next s' →
    s'.code = s.code ∧ (∀ a : Nat, codeByte s' a = codeByte s a) ∧ s'.globals = s.globals) ∧
  ∀ (p : Params) (s s' : State), stepWith p s = .next s' →
    s'.code = s.code ∧ (∀ a : Nat, codeByte s' a = codeByte s a) ∧ s'.globals = s.globals

/-- Each step moves `ip` by 0, 1 or 9, and which it is: 0 only at the failed range check, 9 only for a PUSH_I64 that
succeeds (R24, derived there; its conflict C3). -/
def Obligations.StepMovesInstructionPointer : Prop :=
  ∀ s s' : State, step s = .next s' →
    (s.code.length ≤ s.ip ∧ s'.ip = s.ip ∧ s'.reason = .ipOutOfRange) ∨
    (s.ip < s.code.length ∧ s'.ip = s.ip + 9 ∧ s'.status = .continuing ∧
      ∃ (v : Word) (rest : List Byte), decode (s.code.drop s.ip) = .instr (.pushI64 v) rest) ∨
    (s.ip < s.code.length ∧ s'.ip = s.ip + 1 ∧
      ∀ (v : Word) (rest : List Byte), decode (s.code.drop s.ip) ≠ .instr (.pushI64 v) rest)

/-- The invariant of the state is kept by every step. -/
def Obligations.StepKeepsInvariant : Prop :=
  ∀ s s' : State, s.Inv → step s = .next s' → s'.Inv

/-- The state after construction meets the invariant. -/
def Obligations.ResetMeetsInvariant : Prop :=
  State.reset.Inv

/-- Every host command, at any parameters, keeps the invariant, from every state that meets it. -/
def Obligations.CommandKeepsInvariant : Prop :=
  (∀ (p : Params) (c : Command) (s s' : State) (r : Reply), s.Inv → commandWith p c s = .next (s', r) → s'.Inv) ∧
  ∀ (c : Command) (s s' : State) (r : Reply), s.Inv → command c s = .next (s', r) → s'.Inv

/-- Every state that host commands reach meets the invariant: `ip` is in 0..len(Code), the globals are empty, and FR is NONE
exactly when ST is not Failed (R23, R26, R28; the first two are derived in the spec). -/
def Obligations.ReachableStatesMeetInvariant : Prop :=
  ∀ s : State, Reachable s → s.Inv

/-- The state after construction. The empty stack and globals are the source's; the other four values are decision D8
(assumption 5). -/
def Obligations.ConstructionState : Prop :=
  State.reset = { code := [], ip := 0, stack := [], globals := [], status := .continuing, reason := .none } ∧
    Sys2Proof.core.reset = State.reset

/-- Only HALT ends a run in Halted: there is no implicit halt (R184, derived there). -/
def Obligations.OnlyHaltReachesHalted : Prop :=
  ∀ s s' : State, step s = .next s' →
    (s'.status = .halted ↔ ∃ rest : List Byte, decode (s.code.drop s.ip) = .instr .halt rest)

/-- A failing step keeps what it did and does nothing after. What it has popped follows from its reason: nothing before the pops,
the whole of a stack too short for them at an underflow, both operands at a zero divisor. The index of its opcode byte can be told
from `ip` and FR (R202 and R204, in part derived there; the empty stack after an underflow at depth one is assumption 14). -/
def Obligations.FailingStepIsNotRolledBack : Prop :=
  ∀ s s' : State, step s = .next s' → s'.status = .failed →
    s'.reason ≠ .none ∧
    (s'.reason = .ipOutOfRange ∨ s'.reason = .truncatedImmediate ∨ s'.reason = .illegalOpcode → s'.stack = s.stack) ∧
    (s'.reason = .stackUnderflow → s.stack.length < 2 ∧ s'.stack = []) ∧
    (s'.reason = .divByZero ∨ s'.reason = .modByZero →
      2 ≤ s.stack.length ∧ s'.stack = s.stack.take (s.stack.length - 2)) ∧
    s'.code = s.code ∧ s'.globals = s.globals ∧
    s.ip = (if s'.reason = .ipOutOfRange then s'.ip else s'.ip - 1) ∧
    (s'.reason = .ipOutOfRange ∨ s'.ip = s.ip + 1)

/-- The cause of each failure reason (the table of spec/60_exceptions.md section 1). `depthNeeded` is 2 for the six two-operand
instructions and 1 for POP. -/
def Obligations.CauseOfEachFailureReason : Prop :=
  ∀ s s' : State, step s = .next s' →
    (s'.reason = .ipOutOfRange ↔ s.code.length ≤ s.ip) ∧
    (s'.reason = .truncatedImmediate ↔ codeByte s s.ip = some 0x01 ∧ s.code.length - (s.ip + 1) < 8) ∧
    (s'.reason = .illegalOpcode ↔ ∃ b : Byte, codeByte s s.ip = some b ∧ 10 ≤ b.toNat) ∧
    (s'.reason = .stackUnderflow ↔
      ((∃ b ∈ ([0x02, 0x04, 0x05, 0x06, 0x07, 0x09] : List Byte), codeByte s s.ip = some b) ∧ s.stack.length < 2) ∨
        (codeByte s s.ip = some 0x08 ∧ s.stack = [])) ∧
    (s'.reason = .divByZero ↔ codeByte s s.ip = some 0x06 ∧ ∃ rest a, s.stack = rest ++ [a, 0]) ∧
    (s'.reason = .modByZero ↔ codeByte s s.ip = some 0x07 ∧ ∃ rest a, s.stack = rest ++ [a, 0])

/-- Only PUSH_I64 increases the depth, and by one value (R140's last item, derived there). -/
def Obligations.OnlyPushDeepensTheStack : Prop :=
  ∀ s s' : State, step s = .next s' → s.stack.length < s'.stack.length →
    ∃ (v : Word) (rest : List Byte), decode (s.code.drop s.ip) = .instr (.pushI64 v) rest ∧ s'.stack = s.stack ++ [v]

/-- No step, at any parameters, writes or removes an entry of the stack below the top two. -/
def Obligations.EntriesBelowTopTwoStay : Prop :=
  ∀ (p : Params) (s s' : State), stepWith p s = .next s' →
    ∀ k : Nat, k + 2 < s.stack.length → s'.stack[k]? = s.stack[k]?

/-- What a step does depends on Code, `ip` and the stack alone: two states that agree on these step to states that agree on
everything but the globals, each keeping its own (R106, derived there). -/
def Obligations.StepReadsCodeIpAndStackOnly : Prop :=
  ∀ (p : Params) (s t : State), s.code = t.code → s.ip = t.ip → s.stack = t.stack →
    (∀ s', stepWith p s = .next s' → stepWith p t = .next { s' with globals := t.globals }) ∧
    (∀ f, stepWith p s = .fault f → stepWith p t = .fault f) ∧
    ∀ r, stepWith p s = .refused r → stepWith p t = .refused r

/-! ## The instructions

Each statement gives the whole next state, so it says what the instruction leaves unchanged. The state in which `exec` runs has
`ip` already past the opcode byte (R101). -/

/-- SKIP: encoded in one byte, no effect beyond completing, in any state. The byte value is decision D1 (assumption 1). -/
def Obligations.SkipOnlyCompletes : Prop :=
  (∀ m : OpcodeMap, encodeWith m .skip = [m.skip]) ∧
  ∀ s : State, exec .skip s = .next { s with status := .continuing, reason := .none }

/-- HALT: at any depth the run ends in Halted with everything else as it was, `ip` one past the HALT byte, and no byte after it
is executed by that run; a later STEP or RUN goes on from there. -/
def Obligations.HaltEndsTheRun : Prop :=
  encode .halt = [0x03] ∧
  (∀ s : State, exec .halt s = .next { s with status := .halted, reason := .none }) ∧
  ∀ s : State, codeByte s s.ip = some 0x03 →
    step s = .next { s with ip := s.ip + 1, status := .halted, reason := .none } ∧
    run s = .next { s with ip := s.ip + 1, status := .halted, reason := .none } ∧
    step { s with ip := s.ip + 1, status := .halted, reason := .none } = step { s with ip := s.ip + 1 } ∧
    run { s with ip := s.ip + 1, status := .halted, reason := .none } = run { s with ip := s.ip + 1 }

/-- PUSH_I64: with at least eight bytes left the immediate goes on the stack at any depth and `ip` moves past it; with fewer
nothing is read or pushed and `ip` stays past the opcode byte. The clauses on `exec` push the immediate that the decoded instruction
carries, whatever lies at `ip` (assumption 12); the last two clauses say of the step on the code bytes what R130 says. -/
def Obligations.PushI64PushesItsImmediate : Prop :=
  (∀ v : Word, encode (.pushI64 v) = 0x01 :: le64Bytes v ∧ (encode (.pushI64 v)).length = 9) ∧
  (∀ (v : Word) (s : State), s.ip + 8 ≤ s.code.length →
    exec (.pushI64 v) s =
      .next { s with ip := s.ip + 8, stack := s.stack ++ [v], status := .continuing, reason := .none }) ∧
  (∀ (v : Word) (s : State), s.code.length < s.ip + 8 →
    exec (.pushI64 v) s = .next { s with status := .failed, reason := .truncatedImmediate }) ∧
  (∀ (b0 b1 b2 b3 b4 b5 b6 b7 : Byte) (rest : List Byte) (s : State),
    s.code.drop s.ip = 0x01 :: b0 :: b1 :: b2 :: b3 :: b4 :: b5 :: b6 :: b7 :: rest →
    step s = .next { s with
      ip := s.ip + 9, stack := s.stack ++ [le64 b0 b1 b2 b3 b4 b5 b6 b7], status := .continuing, reason := .none }) ∧
  ∀ s : State, codeByte s s.ip = some 0x01 → s.code.length - (s.ip + 1) < 8 →
    step s = .next { s with ip := s.ip + 1, status := .failed, reason := .truncatedImmediate }

/-- POP: discards the top value, or underflows on an empty stack, which stays empty. -/
def Obligations.PopDiscardsTheTop : Prop :=
  (∀ (s : State) (rest : List Word) (v : Word), s.stack = rest ++ [v] →
    exec .pop s = .next { s with stack := rest, status := .continuing, reason := .none }) ∧
  ∀ s : State, s.stack = [] → exec .pop s = .next { s with status := .failed, reason := .stackUnderflow }

/-- SWAP: exchanges the top two values; on a depth below two it underflows and the stack ends empty, the one value lost (derived
in the spec from its pseudocode; assumption 14). -/
def Obligations.SwapExchangesTheTopTwo : Prop :=
  (∀ (s : State) (rest : List Word) (a b : Word), s.stack = rest ++ [a, b] →
    exec .swap s = .next { s with stack := rest ++ [b, a], status := .continuing, reason := .none }) ∧
  ∀ s : State, s.stack.length < 2 →
    exec .swap s = .next { s with stack := [], status := .failed, reason := .stackUnderflow }

/-- ADD: one byte 0x02; pops B and A and pushes A + B, wrapped, with no failure on overflow; underflows below depth two; operand
order is not observable; and its corner cases (R152). That an underflow at depth one leaves the stack empty is assumption 14. -/
def Obligations.AddPushesWrappedSum : Prop :=
  encode .add = [0x02] ∧
  (∀ (s : State) (rest : List Word) (a b : Word), s.stack = rest ++ [a, b] →
    exec .add s = .next { s with
      stack := rest ++ [w64 (wrap (s64 a + s64 b))], status := .continuing, reason := .none }) ∧
  (∀ s : State, s.stack.length < 2 →
    exec .add s = .next { s with stack := [], status := .failed, reason := .stackUnderflow }) ∧
  (∀ a b : Word, w64 (wrap (s64 a + s64 b)) = w64 (wrap (s64 b + s64 a))) ∧
  w64 (wrap (maxValue + 1)) = w64 minValue ∧ w64 (wrap (minValue + -1)) = w64 maxValue ∧
  w64 (wrap (minValue + minValue)) = w64 0

/-- SUB: pops B and A and pushes A - B, wrapped; underflows below depth two, and that the stack is then empty at depth one is
assumption 14. Its byte value is decision D1 and not part of this statement. -/
def Obligations.SubPushesWrappedDifference : Prop :=
  (∀ m : OpcodeMap, encodeWith m .sub = [m.sub]) ∧
  (∀ (s : State) (rest : List Word) (a b : Word), s.stack = rest ++ [a, b] →
    exec .sub s = .next { s with
      stack := rest ++ [w64 (wrap (s64 a - s64 b))], status := .continuing, reason := .none }) ∧
  ∀ s : State, s.stack.length < 2 →
    exec .sub s = .next { s with stack := [], status := .failed, reason := .stackUnderflow }

/-- MUL: pops B and A and pushes A * B, wrapped; underflows below depth two, and that the stack is then empty at depth one is
assumption 14. Its byte value is decision D1 and not part of this statement. -/
def Obligations.MulPushesWrappedProduct : Prop :=
  (∀ m : OpcodeMap, encodeWith m .mul = [m.mul]) ∧
  (∀ (s : State) (rest : List Word) (a b : Word), s.stack = rest ++ [a, b] →
    exec .mul s = .next { s with
      stack := rest ++ [w64 (wrap (s64 a * s64 b))], status := .continuing, reason := .none }) ∧
  ∀ s : State, s.stack.length < 2 →
    exec .mul s = .next { s with stack := [], status := .failed, reason := .stackUnderflow }

/-- DIV: the truncated quotient A / B; DIV_BY_ZERO with both operands lost when B = 0; MIN / -1 wraps to MIN, which is decision D3
(assumption 4); underflow below depth two, whatever the entry is, and that the stack is then empty at depth one is assumption 14. -/
def Obligations.DivPushesTruncatedQuotient : Prop :=
  encode .div = [0x06] ∧
  (∀ (s : State) (rest : List Word) (a b : Word), s.stack = rest ++ [a, b] → s64 b ≠ 0 →
    ¬(s64 a = minValue ∧ s64 b = -1) →
    exec .div s = .next { s with
      stack := rest ++ [w64 (Int.tdiv (s64 a) (s64 b))], status := .continuing, reason := .none }) ∧
  (∀ (s : State) (rest : List Word) (a b : Word), s.stack = rest ++ [a, b] → s64 a = minValue → s64 b = -1 →
    exec .div s = .next { s with stack := rest ++ [w64 minValue], status := .continuing, reason := .none }) ∧
  (∀ (s : State) (rest : List Word) (a b : Word), s.stack = rest ++ [a, b] → s64 b = 0 →
    exec .div s = .next { s with stack := rest, status := .failed, reason := .divByZero }) ∧
  ∀ s : State, s.stack.length < 2 →
    exec .div s = .next { s with stack := [], status := .failed, reason := .stackUnderflow }

/-- MOD: the remainder A - B * tdiv(A, B); MOD_BY_ZERO with both operands lost when B = 0; MIN % -1 is 0, which is decision D3
(assumption 4); underflow below depth two, whatever the entry is, and that the stack is then empty at depth one is assumption 14. -/
def Obligations.ModPushesTruncatedRemainder : Prop :=
  (∀ m : OpcodeMap, encodeWith m .mod = [m.mod]) ∧
  (∀ (s : State) (rest : List Word) (a b : Word), s.stack = rest ++ [a, b] → s64 b ≠ 0 →
    ¬(s64 a = minValue ∧ s64 b = -1) →
    exec .mod s = .next { s with
      stack := rest ++ [w64 (s64 a - s64 b * Int.tdiv (s64 a) (s64 b))], status := .continuing, reason := .none }) ∧
  (∀ (s : State) (rest : List Word) (a b : Word), s.stack = rest ++ [a, b] → s64 a = minValue → s64 b = -1 →
    exec .mod s = .next { s with stack := rest ++ [w64 0], status := .continuing, reason := .none }) ∧
  (∀ (s : State) (rest : List Word) (a b : Word), s.stack = rest ++ [a, b] → s64 b = 0 →
    exec .mod s = .next { s with stack := rest, status := .failed, reason := .modByZero }) ∧
  ∀ s : State, s.stack.length < 2 →
    exec .mod s = .next { s with stack := [], status := .failed, reason := .stackUnderflow }

/-- The operand handling that ADD, SUB, MUL, DIV and MOD share: B is popped first and A second; one result goes back, so the depth
falls by one; an underflow pushes nothing and leaves the stack empty; a later failed check has lost both. -/
def Obligations.ArithmeticPopsTwoPushesOne : Prop :=
  (∀ (s : State) (rest : List Word) (a b : Word) (k : Word → Word → State → StepOutcome),
    s.stack = rest ++ [a, b] → withPop2 s k = k a b { s with stack := rest }) ∧
  ∀ i ∈ [Instr.add, .sub, .mul, .div, .mod], ∀ s s' : State, exec i s = .next s' →
    (s.stack.length < 2 → s'.stack = [] ∧ s'.status = .failed ∧ s'.reason = .stackUnderflow) ∧
    (s'.status = .continuing → 2 ≤ s.stack.length ∧
      ∃ r : Word, s'.stack = s.stack.take (s.stack.length - 2) ++ [r]) ∧
    (2 ≤ s.stack.length → s'.status ≠ .continuing → s'.stack = s.stack.take (s.stack.length - 2)) ∧
    s'.status ≠ .halted

/-! ## The arithmetic (spec/42_arithmetic.md) -/

/-- `wrap` reduces any integer into the signed range, changes it by a multiple of 2^64, leaves a number of the range alone, and
`w64` stores it without loss. -/
def Obligations.WrapReducesIntoSignedRange : Prop :=
  ∀ n : Int,
    minValue ≤ wrap n ∧ wrap n ≤ maxValue ∧ (∃ k : Int, wrap n = n + k * 2 ^ 64) ∧
    (minValue ≤ n → n ≤ maxValue → wrap n = n) ∧ s64 (w64 (wrap n)) = wrap n

/-- The ALU's five results, written over the integers, are the bit-vector operations of the same names, on every pair of words
(a zero divisor and the overflow pair, which the instructions test first, included). -/
def Obligations.AluIsBitVectorArithmetic : Prop :=
  ∀ a b : Word,
    aluAdd a b = a + b ∧ aluSub a b = a - b ∧ aluMul a b = a * b ∧ aluDiv a b = a.sdiv b ∧ aluMod a b = a.srem b

/-- The division identity of the values that DIV and MOD push, the bound on the remainder and its sign, and truncation toward zero,
for every divisor but zero and every pair but MIN and -1; for that pair the identity holds modulo 2^64, of the two values that the
default policy pushes (R158, derived there; decision D3, assumption 4). -/
def Obligations.DivisionIdentity : Prop :=
  ∀ (s : State) (rest : List Word) (a b : Word), s.stack = rest ++ [a, b] → s64 b ≠ 0 →
    ∃ q r : Word,
      exec .div s = .next { s with stack := rest ++ [q], status := .continuing, reason := .none } ∧
      exec .mod s = .next { s with stack := rest ++ [r], status := .continuing, reason := .none } ∧
      (¬(s64 a = minValue ∧ s64 b = -1) →
        s64 a = s64 b * s64 q + s64 r ∧
        (s64 r).natAbs < (s64 b).natAbs ∧
        (s64 r = 0 ∨ (s64 r < 0 ↔ s64 a < 0)) ∧
        (s64 b * s64 q).natAbs ≤ (s64 a).natAbs) ∧
      (s64 a = minValue → s64 b = -1 → wrap (s64 b * s64 q + s64 r) = s64 a)

/-- The complete list of overflow cases: when the stored result differs from the mathematical one (R160, derived there). -/
def Obligations.OverflowCases : Prop :=
  ∀ a b : Word,
    (s64 (aluAdd a b) ≠ s64 a + s64 b ↔
      ((s64 a < 0 ↔ s64 b < 0) ∧ ¬(s64 (aluAdd a b) < 0 ↔ s64 a < 0))) ∧
    (s64 (aluSub a b) ≠ s64 a - s64 b ↔
      (¬(s64 a < 0 ↔ s64 b < 0) ∧ ¬(s64 (aluSub a b) < 0 ↔ s64 a < 0))) ∧
    (s64 (aluMul a b) ≠ s64 a * s64 b ↔ (s64 a * s64 b < minValue ∨ maxValue < s64 a * s64 b)) ∧
    (s64 b ≠ 0 → (s64 (aluDiv a b) ≠ Int.tdiv (s64 a) (s64 b) ↔ (s64 a = minValue ∧ s64 b = -1))) ∧
    (s64 b ≠ 0 → s64 (aluMod a b) = s64 a - s64 b * Int.tdiv (s64 a) (s64 b))

/-- The sign table of section 3 for representable quotients (derived there). -/
def Obligations.DivisionSignTable : Prop :=
  ∀ row ∈ ([(7, 2, 3, 1), (-7, 2, -3, -1), (7, -2, -3, 1), (-7, -2, 3, -1), (6, 3, 2, 0), (-6, 3, -2, 0), (0, 5, 0, 0),
      (0, -5, 0, 0), (1, 2, 0, 1), (-1, 2, 0, -1), (minValue, 1, minValue, 0), (minValue, maxValue, -1, -1),
      (maxValue, minValue, 0, maxValue)] : List (Int × Int × Int × Int)),
    aluDiv (w64 row.1) (w64 row.2.1) = w64 row.2.2.1 ∧ aluMod (w64 row.1) (w64 row.2.1) = w64 row.2.2.2

/-! ## Laws of two steps and of runs -/

/-- PUSH_I64 and then POP leave the stack as it was, for every immediate, and move `ip` by ten (R131, derived there; POP's byte is
decision D1, assumption 1). -/
def Obligations.PushThenPopRestoresTheStack : Prop :=
  ∀ (s : State) (v : Word) (rest : List Byte),
    s.code.drop s.ip = encode (.pushI64 v) ++ (encode .pop ++ rest) →
    ∃ s₁ : State, step s = .next s₁ ∧
      step s₁ = .next { s with ip := s.ip + 10, status := .continuing, reason := .none }

/-- Two SWAPs at depth two or more leave the stack as it was and move `ip` by two (R137, derived there; SWAP's byte is decision
D1, assumption 1). -/
def Obligations.SwapTwiceRestoresTheStack : Prop :=
  ∀ (s : State) (rest : List Byte), 2 ≤ s.stack.length →
    s.code.drop s.ip = encode .swap ++ (encode .swap ++ rest) →
    ∃ s₁ : State, step s = .next s₁ ∧ s₁.status = .continuing ∧
      step s₁ = .next { s with ip := s.ip + 2, status := .continuing, reason := .none }

/-- Any number of SKIP bytes followed by HALT halts one past the HALT byte with the stack untouched (R183, derived there; SKIP's
byte is decision D1, assumption 1). -/
def Obligations.SkipsThenHaltAlwaysHalts : Prop :=
  ∀ (k : Nat) (s : State) (rest : List Byte),
    s.code.drop s.ip = List.replicate k 0x00 ++ 0x03 :: rest →
    run s = .next { s with ip := s.ip + k + 1, status := .halted, reason := .none }

/-- Every run ends, within len(Code) - ip + 1 steps: with that much fuel or more the loop stops by its own test, in the same state
(R111, derived there). That every run answers a state rests on the default parameters: no capacity (decision D4, assumption 2) and
wrap (decision D3, assumption 4). -/
def Obligations.EveryRunEnds : Prop :=
  ∀ s : State, ∃ s' : State, RunEndsIn s s' ∧
    ∀ fuel : Nat, runBound s ≤ fuel → runLoop step fuel s.resume = .next s'

/-- The run loop: it steps while ST is Continuing, takes no step otherwise, and stops right after the first step that writes
Halted or Failed, in the state that step left. -/
def Obligations.RunRepeatsStepsWhileContinuing : Prop :=
  (∀ s s' : State, step s = .next s' → s'.status = .continuing → run s = run s') ∧
  (∀ s s' : State, step s = .next s' → s'.status ≠ .continuing → run s = .next s') ∧
  ∀ (s : State) (fuel : Nat), s.status ≠ .continuing → runLoop step fuel s = .next s

/-- RUN is the loop from the state it meets with only ST and FR changed, whatever those held, so it resumes at the `ip` and with
the stack that an earlier run or step left; it keeps the code and the globals, never moves `ip` back, and at the end of the code
fails again at once (R113 and R124, derived there; the write of FR is decision D14, assumption 6). -/
def Obligations.RunResumesAtTheInstructionPointer : Prop :=
  (∀ (s : State) (fuel : Nat), s.code.length - s.ip + 1 ≤ fuel →
    run s = runLoop step fuel { s with status := .continuing, reason := .none }) ∧
  (∀ (s : State) (ru : RunStatus) (r : Reason), run { s with status := ru, reason := r } = run s) ∧
  (∀ s s' : State, run s = .next s' → s'.code = s.code ∧ s'.globals = s.globals ∧ s.ip ≤ s'.ip) ∧
  ∀ s : State, s.code.length ≤ s.ip → run s = .next { s with status := .failed, reason := .ipOutOfRange }

/-! ## LOAD and the host interface -/

/-- A load error changes no state, at any parameters. -/
def Obligations.FailedLoadChangesNothing : Prop :=
  ∀ (p : Params) (src : LoadSource) (s s' : State) (r : LoadResult),
    loadWith p src s = .next (s', r) → r ≠ .ok → s' = s

/-- The checks of LOAD in order: at any parameters LOAD answers the error of the first check to fail, in the state it began in, and
it answers OK with the load reset when none does and the program is within MAX_CODE_LEN. That a short read of the header is
LE_TRUNCATED is decision D11 (assumption 13), and the values of ST and FR are decision D13 (assumption 6). -/
def Obligations.LoadChecksInOrder : Prop :=
  ∀ (p : Params) (s : State),
  loadWith p .unreadable s = .next (s, .unreadable) ∧
  ∀ (size : Nat) (data : List Byte),
    (size < 8 → loadWith p (.file size data) s = .next (s, .tooSmall)) ∧
    (8 ≤ size → data.length < 8 → loadWith p (.file size data) s = .next (s, .truncated)) ∧
    (8 ≤ size → ∀ (h body : List Byte), h.length = 8 → data = h ++ body →
      (h.take 4 ≠ [0x7A, 0x70, 0x70, 0x00] → loadWith p (.file size data) s = .next (s, .badMagic)) ∧
      (∀ v0 v1 f0 f1 : Byte, h = [0x7A, 0x70, 0x70, 0x00, v0, v1, f0, f1] →
        (¬(v0 = 0x01 ∧ v1 = 0x00) → loadWith p (.file size data) s = .next (s, .badVersion)) ∧
        (v0 = 0x01 → v1 = 0x00 →
          (¬(f0 = 0x00 ∧ f1 = 0x00) → loadWith p (.file size data) s = .next (s, .badFlags)) ∧
          (f0 = 0x00 → f1 = 0x00 →
            (size = 8 → loadWith p (.file size data) s = .next (s, .emptyCode)) ∧
            (8 < size → body.length < size - 8 → loadWith p (.file size data) s = .next (s, .truncated)) ∧
            (8 < size → size - 8 ≤ body.length → (∀ cap : Nat, p.maxCodeLen = some cap → size - 8 ≤ cap) →
              loadWith p (.file size data) s =
                .next ({ code := body.take (size - 8), ip := 0, stack := [], globals := [], status := .continuing,
                         reason := .none }, .ok))))))

/-- A finite MAX_CODE_LEN: a LOAD that the default machine answers OK does the same within the limit and is refused beyond it, and
no other LOAD is touched; without a limit LOAD is the default LOAD. That the longer program is refused is the model's choice
(decision D5, assumption 3). -/
def Obligations.FiniteMaxCodeLenRefusesLongerPrograms : Prop :=
  ∀ (p : Params) (src : LoadSource) (s s' : State) (r : LoadResult), load src s = .next (s', r) →
    (p.maxCodeLen = none → loadWith p src s = .next (s', r)) ∧
    ∀ cap : Nat, p.maxCodeLen = some cap →
      (r ≠ .ok → loadWith p src s = .next (s', r)) ∧
      (r = .ok → s'.code.length ≤ cap → loadWith p src s = .next (s', .ok)) ∧
      (r = .ok → cap < s'.code.length → loadWith p src s = .refused .codeTooLong)

/-- LOAD is all or nothing: OK exactly on a container with a non-empty bytecode section delivered in full, and then every field is
written, whatever the state was; otherwise nothing changes. The values of ST and FR are decision D13 (assumption 6). -/
def Obligations.LoadIsAllOrNothing : Prop :=
  (∀ (src : LoadSource) (s : State), ∃ (s' : State) (r : LoadResult), load src s = .next (s', r) ∧
    (s' = s ∧ r ≠ .ok ∨
      ∃ code : List Byte, code ≠ [] ∧ r = .ok ∧
        (∃ data : List Byte, src = .file (8 + code.length) data ∧ data.take (8 + code.length) = container code) ∧
        s' = { code := code, ip := 0, stack := [], globals := [], status := .continuing, reason := .none })) ∧
  ∀ (code : List Byte) (s : State), code ≠ [] →
    load (.file (8 + code.length) (container code)) s =
      .next ({ code := code, ip := 0, stack := [], globals := [], status := .continuing, reason := .none }, .ok)

/-- STATUS holds ST's code in bits 1 and 0 and FR's code in bits 6 to 4, with the numbers of the two tables and the other bits 0; it
never holds a reserved value; and it tells ST and FR apart. The layout and the codes are decisions D6 and D7 (assumption 8). -/
def Obligations.StatusRegisterLayout : Prop :=
  (∀ s : State,
    ((statusRegister s).extractLsb' 0 2 = match s.status with
      | .continuing => 0b00
      | .halted => 0b01
      | .failed => 0b10) ∧
    ((statusRegister s).extractLsb' 4 3 = match s.reason with
      | .none => 0
      | .ipOutOfRange => 1
      | .truncatedImmediate => 2
      | .illegalOpcode => 3
      | .stackUnderflow => 4
      | .divByZero => 5
      | .modByZero => 6) ∧
    (statusRegister s).extractLsb' 2 2 = 0 ∧ (statusRegister s).extractLsb' 7 1 = 0 ∧
    statusImageWf (statusRegister s) = true) ∧
  ∀ s t : State, statusRegister s = statusRegister t ↔ s.status = t.status ∧ s.reason = t.reason

/-- The codes of LOAD's results, and that they are distinct. The numbers are decision D12 (assumption 8). -/
def Obligations.LoadErrorCodes : Prop :=
  LoadResult.code .ok = 0 ∧ LoadResult.code .unreadable = 1 ∧ LoadResult.code .tooSmall = 2 ∧
  LoadResult.code .badMagic = 3 ∧ LoadResult.code .badVersion = 4 ∧ LoadResult.code .badFlags = 5 ∧
  LoadResult.code .emptyCode = 6 ∧ LoadResult.code .truncated = 7 ∧
  ∀ r r' : LoadResult, r.code = r'.code → r = r'

/-- The flags are views of FR: each is set by a step only when that step raises its reason, and RUN's entry and a load clear them
(R30, derived there). -/
def Obligations.FlagsAreViewsOfTheReason : Prop :=
  (∀ s s' : State, step s = .next s' →
    (flagUF s' = true ↔ s'.status = .failed ∧ s'.reason = .stackUnderflow) ∧
    (flagDzDiv s' = true ↔ s'.status = .failed ∧ s'.reason = .divByZero) ∧
    (flagDzMod s' = true ↔ s'.status = .failed ∧ s'.reason = .modByZero) ∧
    (flagDZ s' = true ↔ flagDzDiv s' = true ∨ flagDzMod s' = true)) ∧
  (∀ s : State, flagUF s.resume = false ∧ flagDZ s.resume = false) ∧
  ∀ b : List Byte, flagUF (loadReset b) = false ∧ flagDZ (loadReset b) = false

/-- The commands: STEP is one step and RUN one run whatever ST holds, LOAD answers its result, and READ changes no state and
answers the tuple or the STATUS register. The interface is decision D9 (assumption 13). -/
def Obligations.HostCommands : Prop :=
  (∀ s s' : State, step s = .next s' → command .step s = .next (s', .nothing)) ∧
  (∀ s s' : State, run s = .next s' → command .run s = .next (s', .nothing)) ∧
  (∀ (src : LoadSource) (s s' : State) (r : LoadResult), load src s = .next (s', r) →
    command (.load src) s = .next (s', .loaded r)) ∧
  ∀ s : State, command (.read .tuple) s = .next (s, .tuple s) ∧
    command (.read .status) s = .next (s, .status (statusRegister s))

/-! ## The parameters (spec/00_scope.md section 4) -/

/-- DIV_OVF_POLICY = fault: DIV and MOD of MIN and -1 are the model fault DivOverflow, and the policy makes no other difference: not
to them on any other stack, not to another instruction, not to a step that does not fault, and not to LOAD (decision D3,
assumption 4). -/
def Obligations.FaultPolicyStopsOnlyAtMinByMinusOne : Prop :=
  ∀ (p : Params) (s : State), p.divOvfPolicy = .fault →
    (∀ (rest : List Word) (a b : Word), s.stack = rest ++ [a, b] → s64 a = minValue → s64 b = -1 →
      execWith p .div s = .fault .divOverflow ∧ execWith p .mod s = .fault .divOverflow) ∧
    (∀ i : Instr,
      ¬((i = .div ∨ i = .mod) ∧ ∃ rest a b, s.stack = rest ++ [a, b] ∧ s64 a = minValue ∧ s64 b = -1) →
      execWith p i s = execWith { p with divOvfPolicy := .wrap } i s) ∧
    ((∀ f : Fault, stepWith p s ≠ .fault f) → stepWith p s = stepWith { p with divOvfPolicy := .wrap } s) ∧
    ∀ src : LoadSource, loadWith p src s = loadWith { p with divOvfPolicy := .wrap } src s

/-- A finite STACK_CAP: PUSH_I64 at that depth is refused, below it pushes as without a cap, and from a stack within the cap no
step leaves it (decision D4, assumption 2). -/
def Obligations.FiniteStackCapRefusesThePush : Prop :=
  ∀ (p : Params) (cap : Nat) (s : State), p.stackCap = some cap → s.stack.length ≤ cap →
    (∀ v : Word, s.ip + 8 ≤ s.code.length →
      (s.stack.length = cap → execWith p (.pushI64 v) s = .refused .resourceExhausted) ∧
      (s.stack.length < cap → execWith p (.pushI64 v) s = exec (.pushI64 v) s)) ∧
    ∀ s' : State, stepWith p s = .next s' → s'.stack.length ≤ cap

/-- The model's own stops are reached only away from the defaults. A step faults only under the fault policy, on the overflow pair,
and is refused only under a finite cap on the depth that the push meets; and of the host commands LOAD alone has a stop of its own,
under a finite MAX_CODE_LEN (assumption 3). -/
def Obligations.ModelStopsOnlyAwayFromDefaults : Prop :=
  ∀ (p : Params) (s : State),
    (∀ f : Fault, stepWith p s = .fault f → p.divOvfPolicy = .fault ∧
      ∃ rest a b, s.stack = rest ++ [a, b] ∧ s64 a = minValue ∧ s64 b = -1) ∧
    (∀ r : Refusal, stepWith p s = .refused r → r = .resourceExhausted ∧
      ∃ cap, p.stackCap = some cap ∧ cap ≤ s.stack.length) ∧
    (∀ (c : Command) (f : Fault), commandWith p c s = .fault f → p.divOvfPolicy = .fault) ∧
    ∀ (c : Command) (r : Refusal), commandWith p c s = .refused r →
      (r = .resourceExhausted ∧ ∃ cap, p.stackCap = some cap) ∨
      (r = .codeTooLong ∧ (∃ src, c = .load src) ∧ ∃ cap, p.maxCodeLen = some cap)

/-- A step on one of the four opcodes that the source gives does not depend on OPCODE_MAP: any two machines that differ in their
admissible maps alone do the same (R7, derived there). -/
def Obligations.SourceOpcodesDoNotDependOnTheMap : Prop :=
  ∀ (p : Params) (m : OpcodeMap) (s : State), p.wf = true → m.wf = true →
    (∃ b ∈ ([0x01, 0x02, 0x03, 0x06] : List Byte), codeByte s s.ip = some b) →
    stepWith { p with opcodeMap := m } s = stepWith p s

/-- Admissibility of a map: the three conditions of R74, and the first two imply the third. -/
def Obligations.OpcodeMapConditions : Prop :=
  ∀ m : OpcodeMap,
    (m.wf = true ↔
      (∀ o o' : Opcode, m.byteOf o = m.byteOf o' → o = o') ∧
      m.byteOf .pushI64 = 0x01 ∧ m.byteOf .add = 0x02 ∧ m.byteOf .halt = 0x03 ∧ m.byteOf .div = 0x06)

/-! ## The assembler (spec/30_encoding.md section 6) -/

/-- The syntax writes every program: what the printer writes parses back, and assembles to the concatenation of the statements'
encodings (decision D15, assumption 11). -/
def Obligations.AssemblerReadsEveryPrintedProgram : Prop :=
  ∀ is : List Instr,
    parseProgram (printProgram is) = some is ∧
    assemble (printProgram is) = some (is.flatMap encode) ∧
    assembleFile (printProgram is) =
      some ([0x7A, 0x70, 0x70, 0x00, 0x01, 0x00, 0x00, 0x00] ++ is.flatMap encode)
end

