-- ==== Sys2Proof/Laws/Decode.lean ====
section
/-! SUPPORT. Byte order and opcodes: splitting a word into bytes and assembling it again, and what the opcode decoder
answers. -/

namespace Sys2Proof

@[simp] theorem le64Bytes_length (v : Word) : (le64Bytes v).length = 8 := rfl

/-- Assembling a word's eight bytes gives the word back. -/
theorem le64_wordByte (v : Word) :
    le64 (wordByte v 0) (wordByte v 1) (wordByte v 2) (wordByte v 3) (wordByte v 4) (wordByte v 5) (wordByte v 6)
      (wordByte v 7) = v := by
  apply BitVec.eq_of_getLsbD_eq
  intro i hi
  simp only [le64, wordByte, BitVec.getLsbD_append, BitVec.getLsbD_extractLsb']
  grind

/-- The bytes of an assembled word are the bytes it was assembled from. -/
theorem le64Bytes_le64 (b0 b1 b2 b3 b4 b5 b6 b7 : Byte) :
    le64Bytes (le64 b0 b1 b2 b3 b4 b5 b6 b7) = [b0, b1, b2, b3, b4, b5, b6, b7] := by
  have h : ∀ k (b : Byte), (∀ i, i < 8 → (le64 b0 b1 b2 b3 b4 b5 b6 b7).getLsbD (8 * k + i) = b.getLsbD i) →
      wordByte (le64 b0 b1 b2 b3 b4 b5 b6 b7) k = b := by
    intro k b hb
    apply BitVec.eq_of_getLsbD_eq
    intro i hi
    rw [wordByte, BitVec.getLsbD_extractLsb', hb i hi]
    simp [hi]
  simp only [le64Bytes]
  rw [h 0 b0, h 1 b1, h 2 b2, h 3 b3, h 4 b4, h 5 b5, h 6 b6, h 7 b7] <;>
    intro i hi <;> simp only [le64, BitVec.getLsbD_append] <;> grind

/-- The opcode decoder answers only operations of that byte (R73). -/
theorem byteOf_of_decodeOpcode {m : OpcodeMap} {b : Byte} {o : Opcode} (h : decodeOpcode m b = some o) :
    m.byteOf o = b := by
  simpa using List.find?_some h

theorem Opcode.mem_all (o : Opcode) : o ∈ Opcode.all := by
  cases o <;> decide

theorem decodeOpcode_eq_none_iff {m : OpcodeMap} {b : Byte} :
    decodeOpcode m b = none ↔ ∀ o, m.byteOf o ≠ b := by
  simp [decodeOpcode, List.find?_eq_none, Opcode.mem_all]

theorem OpcodeMap.wf_injective {m : OpcodeMap} (h : m.wf = true) : m.injective = true := by
  simp [OpcodeMap.wf] at h
  exact h.1.1

/-- Two operations of an injective map share no byte (R74 condition 1). -/
theorem OpcodeMap.byteOf_injective {m : OpcodeMap} (h : m.injective = true) {o o' : Opcode}
    (he : m.byteOf o = m.byteOf o') : o = o' :=
  List.inj_on_of_nodup_map (of_decide_eq_true h) (Opcode.mem_all o) (Opcode.mem_all o') he

/-- Eight bytes decode to PUSH_I64 of the word they assemble to; fewer are truncated. -/
theorem decodeImmediate_cases (bs : List Byte) :
    (bs.length < 8 ∧ decodeImmediate bs = .truncated) ∨
      ∃ v rest, bs = le64Bytes v ++ rest ∧ decodeImmediate bs = .instr (.pushI64 v) rest := by
  unfold decodeImmediate
  split
  · rename_i b0 b1 b2 b3 b4 b5 b6 b7 rest
    exact .inr ⟨_, rest, by rw [le64Bytes_le64]; rfl, rfl⟩
  · rename_i h
    refine .inl ⟨?_, rfl⟩
    rcases bs with _ | ⟨b0, _ | ⟨b1, _ | ⟨b2, _ | ⟨b3, _ | ⟨b4, _ | ⟨b5, _ | ⟨b6, _ | ⟨b7, rest⟩⟩⟩⟩⟩⟩⟩⟩ <;> simp_all
    exact (h b0 b1 b2 b3 b4 b5 b6 b7 rest rfl rfl rfl rfl rfl rfl rfl rfl rfl).elim

/-- Everything the decoder can answer on a non-empty list, by what the first byte is (R73). -/
theorem decodeWith_cons_cases (m : OpcodeMap) (b : Byte) (rest : List Byte) :
    (decodeOpcode m b = none ∧ decodeWith m (b :: rest) = .illegal b) ∨
    (decodeOpcode m b = some .pushI64 ∧ decodeWith m (b :: rest) = decodeImmediate rest) ∨
    (∃ i : Instr, i.opcode ≠ .pushI64 ∧ decodeOpcode m b = some i.opcode ∧
      decodeWith m (b :: rest) = .instr i rest) := by
  cases h : decodeOpcode m b with
  | none => simp [decodeWith, h]
  | some o =>
    cases o with
    | pushI64 => simp [decodeWith, h]
    | skip => exact .inr (.inr ⟨.skip, by decide, rfl, by simp [decodeWith, h]⟩)
    | add => exact .inr (.inr ⟨.add, by decide, rfl, by simp [decodeWith, h]⟩)
    | halt => exact .inr (.inr ⟨.halt, by decide, rfl, by simp [decodeWith, h]⟩)
    | sub => exact .inr (.inr ⟨.sub, by decide, rfl, by simp [decodeWith, h]⟩)
    | mul => exact .inr (.inr ⟨.mul, by decide, rfl, by simp [decodeWith, h]⟩)
    | div => exact .inr (.inr ⟨.div, by decide, rfl, by simp [decodeWith, h]⟩)
    | mod => exact .inr (.inr ⟨.mod, by decide, rfl, by simp [decodeWith, h]⟩)
    | pop => exact .inr (.inr ⟨.pop, by decide, rfl, by simp [decodeWith, h]⟩)
    | swap => exact .inr (.inr ⟨.swap, by decide, rfl, by simp [decodeWith, h]⟩)

end Sys2Proof
end

