-- ==== Sys2Proof/Laws/State.lean ====
section
/-! SUPPORT. One lemma per field per update of the state, so that no later proof unfolds a record update. -/

namespace Sys2Proof.Machine

variable (s : State) (n : Nat) (st : List Word) (ru : RunStatus) (r : Reason)

@[simp] theorem State.advance_code : (s.advance n).code = s.code := rfl
@[simp] theorem State.advance_ip : (s.advance n).ip = s.ip + n := rfl
@[simp] theorem State.advance_stack : (s.advance n).stack = s.stack := rfl
@[simp] theorem State.advance_globals : (s.advance n).globals = s.globals := rfl
@[simp] theorem State.advance_status : (s.advance n).status = s.status := rfl
@[simp] theorem State.advance_reason : (s.advance n).reason = s.reason := rfl

@[simp] theorem State.setStack_code : (s.setStack st).code = s.code := rfl
@[simp] theorem State.setStack_ip : (s.setStack st).ip = s.ip := rfl
@[simp] theorem State.setStack_stack : (s.setStack st).stack = st := rfl
@[simp] theorem State.setStack_globals : (s.setStack st).globals = s.globals := rfl
@[simp] theorem State.setStack_status : (s.setStack st).status = s.status := rfl
@[simp] theorem State.setStack_reason : (s.setStack st).reason = s.reason := rfl

@[simp] theorem State.setStatus_code : (s.setStatus ru r).code = s.code := rfl
@[simp] theorem State.setStatus_ip : (s.setStatus ru r).ip = s.ip := rfl
@[simp] theorem State.setStatus_stack : (s.setStatus ru r).stack = s.stack := rfl
@[simp] theorem State.setStatus_globals : (s.setStatus ru r).globals = s.globals := rfl
@[simp] theorem State.setStatus_status : (s.setStatus ru r).status = ru := rfl
@[simp] theorem State.setStatus_reason : (s.setStatus ru r).reason = r := rfl

@[simp] theorem State.resume_code : s.resume.code = s.code := rfl
@[simp] theorem State.resume_ip : s.resume.ip = s.ip := rfl
@[simp] theorem State.resume_stack : s.resume.stack = s.stack := rfl
@[simp] theorem State.resume_globals : s.resume.globals = s.globals := rfl
@[simp] theorem State.resume_status : s.resume.status = .continuing := rfl
@[simp] theorem State.resume_reason : s.resume.reason = .none := rfl

@[simp] theorem State.setStack_self : s.setStack s.stack = s := rfl

@[simp] theorem State.setStack_setStack (st' : List Word) : (s.setStack st).setStack st' = s.setStack st' := rfl

end Sys2Proof.Machine
end

