-- ==== Sys2Proof/Laws/Memory.lean ====
section
/-! SUPPORT. The code space: every code buffer is in canonical form, a read outside it gives nothing, no operation but LOAD
changes it, and the bytes that `withFetchWord` places lie where the step fetches. -/

namespace Sys2Proof.Machine

/-- Every code buffer is a canonical list of cells: addresses strictly rising from 0, with no gap. -/
theorem Memory.wf_cells (code : List Byte) : Memory.wf (Memory.cells code) = true := by
  simp [Memory.wf, Memory.cells, List.map_fst_zip]

/-- Equal cells are equal code buffers, so the form is canonical. -/
theorem Memory.cells_injective {c c' : List Byte} (h : Memory.cells c = Memory.cells c') : c = c' := by
  have h' := congrArg (List.map Prod.snd) h
  simpa [Memory.cells, List.map_snd_zip] using h'

theorem Memory.wf_reset : Memory.wf (Memory.cells State.reset.code) = true :=
  Memory.wf_cells _

theorem Memory.wf_loadReset (b : List Byte) : Memory.wf (Memory.cells (loadReset b).code) = true :=
  Memory.wf_cells _

/-- Reading outside the buffer gives no byte (R52). -/
theorem codeByte_eq_none_iff {s : State} {i : Nat} : codeByte s i = none ↔ s.code.length ≤ i := by
  simp [codeByte]

/-- The cell at an address is the byte read there. -/
theorem Memory.getElem?_cells (s : State) (i : Nat) :
    (Memory.cells s.code)[i]? = (codeByte s i).map fun b => (i, b) := by
  simp only [Memory.cells, codeByte, Option.map]
  by_cases h : i < s.code.length
  · simp [h, List.zip]
  · simp [h, List.zip]

theorem remainingCode_eq_nil_iff {s : State} : remainingCode s = [] ↔ s.code.length ≤ s.ip := by
  simp [remainingCode]

/-- The byte at `ip` is the head of the remaining code. -/
theorem remainingCode_eq_cons {s : State} {b : Byte} (h : codeByte s s.ip = some b) :
    remainingCode s = b :: s.code.drop (s.ip + 1) := by
  obtain ⟨hlt, hb⟩ := List.getElem?_eq_some_iff.mp h
  rw [remainingCode, List.drop_eq_getElem_cons hlt, hb]

/-- Bytes written over a buffer from an index on are what lies there. -/
theorem drop_overwriteCode (code : List Byte) (n : Nat) (bytes : List Byte) :
    (overwriteCode code n bytes).drop n = bytes ++ code.drop (n + bytes.length) := by
  have hlen : (code.take n ++ List.replicate (n - code.length) (0 : Byte)).length = n := by
    simp; omega
  rw [overwriteCode, List.append_assoc, List.drop_append_of_le_length (by omega), List.drop_of_length_le (by omega)]
  simp

end Sys2Proof.Machine
end

