-- ==== Sys2Proof/Laws/Ops.lean ====
section
/-! SUPPORT. One specification lemma for each shared operation, said once: what it answers on each shape of the stack, and
everything that an answered next state can be. -/

namespace Sys2Proof.Machine

/-! ## Ending a step -/

theorem raise_eq_next {r : Reason} {s s' : State} : raise r s = .next s' ↔ s' = s.setStatus .failed r := by
  simp [raise, eq_comm]

theorem complete_eq_next {s s' : State} : complete s = .next s' ↔ s' = s.setStatus .continuing .none := by
  simp [complete, eq_comm]

theorem halt_eq_next {s s' : State} : halt s = .next s' ↔ s' = s.setStatus .halted .none := by
  simp [halt, eq_comm]

/-! ## Pops -/

theorem withPop_nil {s : State} (h : s.stack = []) (k : Word → State → StepOutcome) :
    withPop s k = raise .stackUnderflow s := by
  simp [withPop, h]

theorem withPop_append {s : State} {rest : List Word} {v : Word} (h : s.stack = rest ++ [v])
    (k : Word → State → StepOutcome) : withPop s k = k v (s.setStack rest) := by
  simp [withPop, h]

theorem withPop2_nil {s : State} (h : s.stack = []) (k : Word → Word → State → StepOutcome) :
    withPop2 s k = raise .stackUnderflow s :=
  withPop_nil h _

/-- The value of a one-entry stack is lost to the first pop (R204). -/
theorem withPop2_singleton {s : State} {v : Word} (h : s.stack = [v]) (k : Word → Word → State → StepOutcome) :
    withPop2 s k = raise .stackUnderflow (s.setStack []) :=
  (withPop_append (rest := []) h _).trans (withPop_nil rfl _)

theorem withPop2_append {s : State} {rest : List Word} {a b : Word} (h : s.stack = rest ++ [a, b])
    (k : Word → Word → State → StepOutcome) : withPop2 s k = k a b (s.setStack rest) := by
  have h' : s.stack = (rest ++ [a]) ++ [b] := by simp [h]
  exact (withPop_append h' _).trans (withPop_append rfl _)

/-- A stack is empty, or it has a top. -/
theorem stack_cases (st : List Word) : st = [] ∨ ∃ rest v, st = rest ++ [v] := by
  rcases List.eq_nil_or_concat st with h | ⟨rest, v, h⟩
  · exact .inl h
  · exact .inr ⟨rest, v, by simpa using h⟩

/-- A stack is empty, or it has one entry, or it has a top two. -/
theorem stack_cases2 (st : List Word) : st = [] ∨ (∃ v, st = [v]) ∨ ∃ rest a b, st = rest ++ [a, b] := by
  rcases stack_cases st with h | ⟨rest, b, rfl⟩
  · exact .inl h
  · rcases stack_cases rest with rfl | ⟨rest', a, rfl⟩
    · exact .inr (.inl ⟨b, rfl⟩)
    · exact .inr (.inr ⟨rest', a, b, by simp⟩)

/-- Everything that one pop can do. -/
theorem withPop_cases (s : State) (k : Word → State → StepOutcome) :
    (s.stack = [] ∧ withPop s k = raise .stackUnderflow s) ∨
      ∃ rest v, s.stack = rest ++ [v] ∧ withPop s k = k v (s.setStack rest) := by
  rcases stack_cases s.stack with h | ⟨rest, v, h⟩
  · exact .inl ⟨h, withPop_nil h k⟩
  · exact .inr ⟨rest, v, h, withPop_append h k⟩

/-- Everything that two pops can do. -/
theorem withPop2_cases (s : State) (k : Word → Word → State → StepOutcome) :
    (s.stack.length < 2 ∧ withPop2 s k = raise .stackUnderflow (s.setStack [])) ∨
      ∃ rest a b, s.stack = rest ++ [a, b] ∧ withPop2 s k = k a b (s.setStack rest) := by
  rcases stack_cases2 s.stack with h | ⟨v, h⟩ | ⟨rest, a, b, h⟩
  · refine .inl ⟨by simp [h], ?_⟩
    rw [withPop2_nil h, ← h, State.setStack_self]
  · exact .inl ⟨by simp [h], withPop2_singleton h k⟩
  · exact .inr ⟨rest, a, b, h, withPop2_append h k⟩

/-- A binary operation on fewer than two entries underflows and empties the stack (R151, R201). -/
theorem withPop2_underflow {s : State} (h : s.stack.length < 2) (k : Word → Word → State → StepOutcome) :
    withPop2 s k = raise .stackUnderflow (s.setStack []) := by
  rcases withPop2_cases s k with ⟨_, h'⟩ | ⟨rest, a, b, hs, _⟩
  · exact h'
  · simp only [hs, List.length_append, List.length_cons, List.length_nil] at h
    omega

/-! ## Pushes -/

@[simp] theorem hasRoom_none (depth : Nat) : hasRoom none depth = true := rfl

@[simp] theorem hasRoom_some (c depth : Nat) : hasRoom (some c) depth = decide (depth < c) := rfl

@[simp] theorem Params.default_stackCap : Params.default.stackCap = none := rfl

@[simp] theorem Params.default_maxCodeLen : Params.default.maxCodeLen = none := rfl

@[simp] theorem Params.default_divOvfPolicy : Params.default.divOvfPolicy = .wrap := rfl

@[simp] theorem Params.default_opcodeMap : Params.default.opcodeMap = OpcodeMap.default := rfl

/-- An unbounded stack takes every push. -/
theorem withPush_unbounded {p : Params} (h : p.stackCap = none) (v : Word) (s : State) (k : State → StepOutcome) :
    withPush p v s k = k (s.setStack (s.stack ++ [v])) := by
  simp [withPush, h]

@[simp] theorem withPush_default (v : Word) (s : State) (k : State → StepOutcome) :
    withPush Params.default v s k = k (s.setStack (s.stack ++ [v])) :=
  withPush_unbounded rfl v s k

/-- Everything that a push can do. -/
theorem withPush_cases (p : Params) (v : Word) (s : State) (k : State → StepOutcome) :
    (hasRoom p.stackCap s.stack.length = true ∧ withPush p v s k = k (s.setStack (s.stack ++ [v]))) ∨
      (hasRoom p.stackCap s.stack.length = false ∧ withPush p v s k = .refused .resourceExhausted) := by
  cases h : hasRoom p.stackCap s.stack.length <;> simp [withPush, h]

/-! ## Binary operations -/

/-- Underflow comes before any other check (R151, R159), and empties the stack. -/
theorem binaryOp_underflow {s : State} (h : s.stack.length < 2) (p : Params) (f : Word → Word → Word) :
    binaryOp p f s = raise .stackUnderflow (s.setStack []) :=
  withPop2_underflow h _

theorem binaryOp_append {s : State} {rest : List Word} {a b : Word} (h : s.stack = rest ++ [a, b]) (p : Params)
    (f : Word → Word → Word) : binaryOp p f s = withPush p (f a b) (s.setStack rest) complete :=
  withPop2_append h _

theorem divideOp_underflow {s : State} (h : s.stack.length < 2) (p : Params) (z : Reason) (w : Word)
    (f : Word → Word → Word) : divideOp p z w f s = raise .stackUnderflow (s.setStack []) :=
  withPop2_underflow h _

/-- A zero divisor: both operands are gone and nothing is pushed. -/
theorem divideOp_zero {s : State} {rest : List Word} {a b : Word} (h : s.stack = rest ++ [a, b]) (hb : s64 b = 0)
    (p : Params) (z : Reason) (w : Word) (f : Word → Word → Word) :
    divideOp p z w f s = raise z (s.setStack rest) := by
  simp [divideOp, withPop2_append h, hb]

theorem divideOp_append {s : State} {rest : List Word} {a b : Word} (h : s.stack = rest ++ [a, b]) (hb : s64 b ≠ 0)
    (ho : divOverflows a b = false) (p : Params) (z : Reason) (w : Word) (f : Word → Word → Word) :
    divideOp p z w f s = withPush p (f a b) (s.setStack rest) complete := by
  simp [divideOp, withPop2_append h, hb, ho]

/-- MIN and -1 under the two policies (R155, R156). -/
theorem divideOp_overflow {s : State} {rest : List Word} {a b : Word} (h : s.stack = rest ++ [a, b])
    (ho : divOverflows a b = true) (p : Params) (z : Reason) (w : Word) (f : Word → Word → Word) :
    divideOp p z w f s =
      match p.divOvfPolicy with
      | .wrap => withPush p w (s.setStack rest) complete
      | .fault => .fault .divOverflow := by
  have hb : s64 b = -1 := by simp [divOverflows] at ho; exact ho.2
  cases hp : p.divOvfPolicy <;> simp [divideOp, withPop2_append h, ho, hb, hp]

/-- The policy matters to MIN and -1 alone. -/
theorem divideOp_policy {s : State}
    (h : ¬∃ rest a b, s.stack = rest ++ [a, b] ∧ s64 a = minValue ∧ s64 b = -1) (p : Params) (d : DivOvfPolicy)
    (z : Reason) (w : Word) (f : Word → Word → Word) :
    divideOp p z w f s = divideOp { p with divOvfPolicy := d } z w f s := by
  by_cases hl : s.stack.length < 2
  · rw [divideOp_underflow hl, divideOp_underflow hl]
  · rcases stack_cases2 s.stack with hs | ⟨v, hs⟩ | ⟨rest, a, b, hs⟩
    · simp [hs] at hl
    · simp [hs] at hl
    · by_cases hb : s64 b = 0
      · rw [divideOp_zero hs hb, divideOp_zero hs hb]
      · have ho : divOverflows a b = false := by
          rw [← Bool.not_eq_true]
          intro ho
          simp only [divOverflows, Bool.and_eq_true, beq_iff_eq] at ho
          exact h ⟨rest, a, b, hs, ho⟩
        rw [divideOp_append hs hb ho, divideOp_append hs hb ho]
        rfl

end Sys2Proof.Machine
end

