-- ==== Sys2Proof/Laws/Step.lean ====
section
/-! SUPPORT. What a step can do, said once, and the two facts that tie `exec` and `step` to the machine over the
parameters. -/

namespace Sys2Proof.Machine

/-- `exec` is the dispatch at the default parameters. -/
theorem exec_eq_execWith_default (i : Instr) (s : State) : exec i s = execWith Params.default i s := by
  cases i <;> rfl

/-- `step` is the step at the default parameters. -/
theorem step_eq_stepWith_default (s : State) : step s = stepWith Params.default s := by
  simp only [step, stepWith, fetch, Params.default_opcodeMap]
  cases fetchWith OpcodeMap.default s with
  | ended o => rfl
  | run i s' => exact exec_eq_execWith_default i s'

/-- Everything a step can do: fail at the fetch, or run the instruction at `ip` in the state whose `ip` is past the
opcode byte. -/
theorem stepWith_cases (p : Params) (s : State) :
    (s.code.length ≤ s.ip ∧ decodeWith p.opcodeMap (remainingCode s) = .endOfCode ∧
      stepWith p s = raise .ipOutOfRange s) ∨
    (∃ b, codeByte s s.ip = some b ∧ decodeOpcode p.opcodeMap b = none ∧
      decodeWith p.opcodeMap (remainingCode s) = .illegal b ∧ stepWith p s = raise .illegalOpcode (s.advance 1)) ∨
    (∃ b, codeByte s s.ip = some b ∧ decodeOpcode p.opcodeMap b = some .pushI64 ∧
      s.code.length < s.ip + 9 ∧ decodeWith p.opcodeMap (remainingCode s) = .truncated ∧
      stepWith p s = raise .truncatedImmediate (s.advance 1)) ∨
    (∃ b i rest, codeByte s s.ip = some b ∧ decodeOpcode p.opcodeMap b = some i.opcode ∧
      remainingCode s = b :: i.operandBytes ++ rest ∧ decodeWith p.opcodeMap (remainingCode s) = .instr i rest ∧
      stepWith p s = execWith p i (s.advance 1)) := by
  rcases Nat.lt_or_ge s.ip s.code.length with hlt | hge
  · have hb : codeByte s s.ip = some s.code[s.ip] := by simp [codeByte, hlt]
    have hr := remainingCode_eq_cons hb
    right
    rcases decodeWith_cons_cases p.opcodeMap s.code[s.ip] (s.code.drop (s.ip + 1)) with
      ⟨ho, hd⟩ | ⟨ho, hd⟩ | ⟨i, hi, ho, hd⟩
    · rw [← hr] at hd
      exact .inl ⟨_, hb, ho, hd, by simp [stepWith, fetchWith, hd]⟩
    · rcases decodeImmediate_cases (s.code.drop (s.ip + 1)) with ⟨hl, hi⟩ | ⟨v, rest, hv, hi⟩
      · rw [hi, ← hr] at hd
        refine .inr (.inl ⟨_, hb, ho, ?_, hd, by simp [stepWith, fetchWith, hd]⟩)
        simp only [List.length_drop] at hl
        omega
      · rw [hi, ← hr] at hd
        exact .inr (.inr ⟨_, .pushI64 v, rest, hb, ho, by rw [hr, hv]; rfl, hd, by simp [stepWith, fetchWith, hd]⟩)
    · rw [← hr] at hd
      refine .inr (.inr ⟨_, i, _, hb, ho, ?_, hd, by simp [stepWith, fetchWith, hd]⟩)
      cases i <;> simp_all [Instr.opcode, Instr.operandBytes]
  · have hr := remainingCode_eq_nil_iff.mpr hge
    exact .inl ⟨hge, by rw [hr]; rfl, by simp [stepWith, fetchWith, hr, decodeWith]⟩

/-- The step that follows `withFetchWord` runs the word's instruction, from any state. -/
theorem step_withFetchWord {nbits w : Nat} {i : Instr} (s : State) (h : decodeTableWord nbits w = some i) :
    step (s.withFetchWord nbits w) = exec i ((s.withFetchWord nbits w).advance 1) := by
  have hr : remainingCode (s.withFetchWord nbits w) = tableBytes nbits w ++ s.code.drop (s.ip + 9) :=
    drop_overwriteCode _ _ _
  have hdec : ∃ rest, decode (remainingCode (s.withFetchWord nbits w)) = .instr i rest := by
    rw [hr]
    simp only [decodeTableWord, decode, tableBytes, decodeWith, decodeImmediate] at h
    simp only [decode, tableBytes, List.cons_append, List.nil_append, decodeWith, decodeImmediate]
    split at h
    · rename_i hd
      revert hd
      repeat' split
      all_goals simp_all
    all_goals simp at h
  obtain ⟨rest, hrest⟩ := hdec
  simp only [decode] at hrest
  simp [step, fetch, fetchWith, hrest]

end Sys2Proof.Machine
end

