-- ==== Sys2Proof/Laws/Exec.lean ====
section
/-! SUPPORT. What each instruction can do when it answers a next state: one inversion lemma for each shape, at any
parameters. -/

namespace Sys2Proof.Machine

variable {p : Params} {s s' : State}

theorem binaryOp_next {f : Word → Word → Word} (h : binaryOp p f s = .next s') :
    (s.stack.length < 2 ∧ s' = (s.setStack []).setStatus .failed .stackUnderflow) ∨
      ∃ rest a b, s.stack = rest ++ [a, b] ∧ s' = (s.setStack (rest ++ [f a b])).setStatus .continuing .none := by
  rcases stack_cases2 s.stack with hs | ⟨v, hs⟩ | ⟨rest, a, b, hs⟩
  · have hl : s.stack.length < 2 := by simp [hs]
    rw [binaryOp_underflow hl] at h
    exact .inl ⟨hl, raise_eq_next.mp h⟩
  · have hl : s.stack.length < 2 := by simp [hs]
    rw [binaryOp_underflow hl] at h
    exact .inl ⟨hl, raise_eq_next.mp h⟩
  · rw [binaryOp_append hs] at h
    rcases withPush_cases p (f a b) (s.setStack rest) complete with ⟨_, hp⟩ | ⟨_, hp⟩ <;> rw [hp] at h
    · exact .inr ⟨rest, a, b, hs, complete_eq_next.mp h⟩
    · cases h

theorem divideOp_next {z : Reason} {w : Word} {f : Word → Word → Word} (h : divideOp p z w f s = .next s') :
    (s.stack.length < 2 ∧ s' = (s.setStack []).setStatus .failed .stackUnderflow) ∨
    (∃ rest a b, s.stack = rest ++ [a, b] ∧ s64 b = 0 ∧ s' = (s.setStack rest).setStatus .failed z) ∨
    (∃ rest a b, s.stack = rest ++ [a, b] ∧ divOverflows a b = true ∧ p.divOvfPolicy = .wrap ∧
      s' = (s.setStack (rest ++ [w])).setStatus .continuing .none) ∨
    (∃ rest a b, s.stack = rest ++ [a, b] ∧ s64 b ≠ 0 ∧ divOverflows a b = false ∧
      s' = (s.setStack (rest ++ [f a b])).setStatus .continuing .none) := by
  rcases stack_cases2 s.stack with hs | ⟨v, hs⟩ | ⟨rest, a, b, hs⟩
  · have hl : s.stack.length < 2 := by simp [hs]
    rw [divideOp_underflow hl] at h
    exact .inl ⟨hl, raise_eq_next.mp h⟩
  · have hl : s.stack.length < 2 := by simp [hs]
    rw [divideOp_underflow hl] at h
    exact .inl ⟨hl, raise_eq_next.mp h⟩
  · by_cases hb : s64 b = 0
    · rw [divideOp_zero hs hb] at h
      exact .inr (.inl ⟨rest, a, b, hs, hb, raise_eq_next.mp h⟩)
    · cases ho : divOverflows a b with
      | true =>
        rw [divideOp_overflow hs ho] at h
        cases hp : p.divOvfPolicy with
        | wrap =>
          simp only [hp] at h
          rcases withPush_cases p w (s.setStack rest) complete with ⟨_, hq⟩ | ⟨_, hq⟩ <;> rw [hq] at h
          · exact .inr (.inr (.inl ⟨rest, a, b, hs, ho, rfl, complete_eq_next.mp h⟩))
          · cases h
        | fault => simp [hp] at h
      | false =>
        rw [divideOp_append hs hb ho] at h
        rcases withPush_cases p (f a b) (s.setStack rest) complete with ⟨_, hq⟩ | ⟨_, hq⟩ <;> rw [hq] at h
        · exact .inr (.inr (.inr ⟨rest, a, b, hs, hb, ho, complete_eq_next.mp h⟩))
        · cases h

theorem pushI64With_next {v : Word} (h : pushI64With p v s = .next s') :
    (s.code.length - s.ip < 8 ∧ s' = s.setStatus .failed .truncatedImmediate) ∨
      (8 ≤ s.code.length - s.ip ∧
        s' = ((s.advance 8).setStack (s.stack ++ [v])).setStatus .continuing .none) := by
  unfold pushI64With at h
  split at h
  · exact .inl ⟨by assumption, raise_eq_next.mp h⟩
  · rcases withPush_cases p v (s.advance 8) complete with ⟨_, hp⟩ | ⟨_, hp⟩ <;> rw [hp] at h
    · exact .inr ⟨by omega, complete_eq_next.mp h⟩
    · cases h

theorem popWith_next (h : popWith p s = .next s') :
    (s.stack = [] ∧ s' = s.setStatus .failed .stackUnderflow) ∨
      ∃ rest v, s.stack = rest ++ [v] ∧ s' = (s.setStack rest).setStatus .continuing .none := by
  rcases withPop_cases s (fun _ s' => complete s') with ⟨hs, hk⟩ | ⟨rest, v, hs, hk⟩ <;>
    rw [popWith, hk] at h
  · exact .inl ⟨hs, raise_eq_next.mp h⟩
  · exact .inr ⟨rest, v, hs, complete_eq_next.mp h⟩

theorem swapWith_underflow (h : s.stack.length < 2) : swapWith p s = raise .stackUnderflow (s.setStack []) :=
  withPop2_underflow h _

/-- SWAP on an unbounded stack. -/
theorem swapWith_append {rest : List Word} {a b : Word} (hp : p.stackCap = none) (h : s.stack = rest ++ [a, b]) :
    swapWith p s = complete (s.setStack (rest ++ [b, a])) := by
  rw [swapWith, withPop2_append h, withPush_unbounded hp, withPush_unbounded hp]
  simp

theorem swapWith_next (h : swapWith p s = .next s') :
    (s.stack.length < 2 ∧ s' = (s.setStack []).setStatus .failed .stackUnderflow) ∨
      ∃ rest a b, s.stack = rest ++ [a, b] ∧ s' = (s.setStack (rest ++ [b, a])).setStatus .continuing .none := by
  rcases stack_cases2 s.stack with hs | ⟨v, hs⟩ | ⟨rest, a, b, hs⟩
  · have hl : s.stack.length < 2 := by simp [hs]
    rw [swapWith_underflow hl] at h
    exact .inl ⟨hl, raise_eq_next.mp h⟩
  · have hl : s.stack.length < 2 := by simp [hs]
    rw [swapWith_underflow hl] at h
    exact .inl ⟨hl, raise_eq_next.mp h⟩
  · rw [swapWith, withPop2_append hs] at h
    rcases withPush_cases p b (s.setStack rest) (fun s'' => withPush p a s'' complete) with ⟨_, hp⟩ | ⟨_, hp⟩ <;>
      rw [hp] at h
    · rcases withPush_cases p a ((s.setStack rest).setStack (rest ++ [b])) complete with ⟨_, hq⟩ | ⟨_, hq⟩ <;>
        simp only [State.setStack_stack] at h <;> rw [hq] at h
      · exact .inr ⟨rest, a, b, hs, by simpa [complete_eq_next] using h⟩
      · cases h
    · cases h

/-- Everything any instruction does to the state, whatever it is: it drops at most two entries, pushes at most two, and
moves `ip` by eight only for a PUSH_I64 that succeeds. Every other field stays. -/
theorem execWith_next {i : Instr} (h : execWith p i s = .next s') :
    ∃ kept dropped pushed, s.stack = kept ++ dropped ∧ dropped.length ≤ 2 ∧ pushed.length ≤ 2 ∧
      s'.stack = kept ++ pushed ∧ s'.code = s.code ∧ s'.globals = s.globals ∧
      (s'.ip = s.ip ∨ (∃ v, i = .pushI64 v ∧ s'.ip = s.ip + 8 ∧ 8 ≤ s.code.length - s.ip ∧ pushed = [v] ∧ dropped = []
        ∧ s'.status = .continuing)) ∧
      ((s'.status = .continuing ∧ s'.reason = .none) ∨ (s'.status = .halted ∧ s'.reason = .none ∧ i = .halt) ∨
        (s'.status = .failed ∧ s'.reason ≠ .none ∧ pushed = [] ∧ s'.ip = s.ip)) := by
  cases i with
  | skip =>
    obtain rfl := complete_eq_next.mp h
    exact ⟨s.stack, [], [], by simp⟩
  | halt =>
    obtain rfl := halt_eq_next.mp h
    exact ⟨s.stack, [], [], by simp⟩
  | pushI64 v =>
    rcases pushI64With_next h with ⟨hl, rfl⟩ | ⟨hl, rfl⟩
    · exact ⟨s.stack, [], [], by simp⟩
    · exact ⟨s.stack, [], [v], by simp [hl]⟩
  | pop =>
    rcases popWith_next (p := p) h with ⟨hs, rfl⟩ | ⟨rest, v, hs, rfl⟩
    · exact ⟨s.stack, [], [], by simp⟩
    · exact ⟨rest, [v], [], by simp [hs]⟩
  | swap =>
    rcases swapWith_next h with ⟨hs, rfl⟩ | ⟨rest, a, b, hs, rfl⟩
    · exact ⟨[], s.stack, [], by simp; omega⟩
    · exact ⟨rest, [a, b], [b, a], by simp [hs]⟩
  | add | sub | mul =>
    rcases binaryOp_next h with ⟨hs, rfl⟩ | ⟨rest, a, b, hs, rfl⟩
    · exact ⟨[], s.stack, [], by simp; omega⟩
    · exact ⟨rest, [a, b], [_], hs, by simp, by simp, rfl, rfl, rfl, .inl rfl, .inl ⟨rfl, rfl⟩⟩
  | div | mod =>
    rcases divideOp_next h with ⟨hs, rfl⟩ | ⟨rest, a, b, hs, _, rfl⟩ | ⟨rest, a, b, hs, _, _, rfl⟩ |
      ⟨rest, a, b, hs, _, _, rfl⟩
    · exact ⟨[], s.stack, [], by simp; omega⟩
    · exact ⟨rest, [a, b], [], by simp [hs]⟩
    · exact ⟨rest, [a, b], [_], hs, by simp, by simp, rfl, rfl, rfl, .inl rfl, .inl ⟨rfl, rfl⟩⟩
    · exact ⟨rest, [a, b], [_], hs, by simp, by simp, rfl, rfl, rfl, .inl rfl, .inl ⟨rfl, rfl⟩⟩

/-- The stack after an instruction that failed, by its reason. -/
theorem execWith_failed {i : Instr} (h : execWith p i s = .next s') (hf : s'.status = .failed) :
    (s'.reason = .truncatedImmediate ∧ s'.stack = s.stack) ∨
    (s'.reason = .stackUnderflow ∧ s.stack.length < 2 ∧ s'.stack = []) ∨
    ((s'.reason = .divByZero ∨ s'.reason = .modByZero) ∧ ∃ a b, s.stack = s'.stack ++ [a, b]) := by
  cases i with
  | skip =>
    obtain rfl := complete_eq_next.mp h
    simp at hf
  | halt =>
    obtain rfl := halt_eq_next.mp h
    simp at hf
  | pushI64 v =>
    rcases pushI64With_next h with ⟨_, rfl⟩ | ⟨_, rfl⟩
    · exact .inl ⟨rfl, rfl⟩
    · simp at hf
  | pop =>
    rcases popWith_next (p := p) h with ⟨hs, rfl⟩ | ⟨rest, v, hs, rfl⟩
    · exact .inr (.inl ⟨rfl, by simp [hs], hs⟩)
    · simp at hf
  | swap =>
    rcases swapWith_next h with ⟨hs, rfl⟩ | ⟨rest, a, b, hs, rfl⟩
    · exact .inr (.inl ⟨rfl, hs, rfl⟩)
    · simp at hf
  | add | sub | mul =>
    rcases binaryOp_next h with ⟨hs, rfl⟩ | ⟨rest, a, b, hs, rfl⟩
    · exact .inr (.inl ⟨rfl, hs, rfl⟩)
    · simp at hf
  | div =>
    rcases divideOp_next h with ⟨hs, rfl⟩ | ⟨rest, a, b, hs, _, rfl⟩ | ⟨rest, a, b, _, _, _, rfl⟩ | ⟨rest, a, b, _, _, _, rfl⟩
    · exact .inr (.inl ⟨rfl, hs, rfl⟩)
    · exact .inr (.inr ⟨.inl rfl, a, b, hs⟩)
    · simp at hf
    · simp at hf
  | mod =>
    rcases divideOp_next h with ⟨hs, rfl⟩ | ⟨rest, a, b, hs, _, rfl⟩ | ⟨rest, a, b, _, _, _, rfl⟩ | ⟨rest, a, b, _, _, _, rfl⟩
    · exact .inr (.inl ⟨rfl, hs, rfl⟩)
    · exact .inr (.inr ⟨.inr rfl, a, b, hs⟩)
    · simp at hf
    · simp at hf

end Sys2Proof.Machine
end

