-- ==== Sys2Proof/Laws/HostInterface.lean ====
section
/-! SUPPORT. The run loop: what it does at each status, and that it stops by a fault or a refusal only where one of its steps
does. -/

namespace Sys2Proof.Machine

variable {stp : State → StepOutcome}

/-- From a state that is not Continuing the loop takes no step (R110). -/
theorem runLoop_done {s : State} (h : s.status ≠ .continuing) (fuel : Nat) : runLoop stp fuel s = .next s := by
  cases fuel with
  | zero => rfl
  | succ n =>
    unfold runLoop
    split
    · contradiction
    · rfl
    · rfl

/-- From a Continuing state the loop takes one step and goes on from its next state (R110). -/
theorem runLoop_continuing {s s' : State} (h : s.status = .continuing) (hs : stp s = .next s') (fuel : Nat) :
    runLoop stp (fuel + 1) s = runLoop stp fuel s' := by
  simp only [runLoop, h, hs]

/-- A loop answers a state, or what one of its steps answers. -/
theorem runLoop_cases (stp : State → StepOutcome) (fuel : Nat) (s : State) :
    (∃ t, runLoop stp fuel s = .next t) ∨ ∃ t, runLoop stp fuel s = stp t := by
  induction fuel generalizing s with
  | zero => exact .inl ⟨s, rfl⟩
  | succ n ih =>
    unfold runLoop
    split
    · split
      · exact ih _
      · exact .inr ⟨s, Eq.symm ‹_›⟩
      · exact .inr ⟨s, Eq.symm ‹_›⟩
    · exact .inl ⟨s, rfl⟩
    · exact .inl ⟨s, rfl⟩

/-- A loop that faults has met a step that faults, with the same fault. -/
theorem runLoop_fault {fuel : Nat} {s : State} {f : Fault} (h : runLoop stp fuel s = .fault f) : ∃ t, stp t = .fault f := by
  rcases runLoop_cases stp fuel s with ⟨t, ht⟩ | ⟨t, ht⟩ <;> rw [ht] at h
  · cases h
  · exact ⟨t, h⟩

/-- A loop that is refused has met a step that is refused, for the same reason. -/
theorem runLoop_refused {fuel : Nat} {s : State} {r : Refusal} (h : runLoop stp fuel s = .refused r) :
    ∃ t, stp t = .refused r := by
  rcases runLoop_cases stp fuel s with ⟨t, ht⟩ | ⟨t, ht⟩ <;> rw [ht] at h
  · cases h
  · exact ⟨t, h⟩

/-- A reply-less command stops as its step or run does. -/
theorem silently_fault {o : StepOutcome} {f : Fault} : silently o = .fault f ↔ o = .fault f := by
  cases o <;> simp [silently]

theorem silently_refused {o : StepOutcome} {r : Refusal} : silently o = .refused r ↔ o = .refused r := by
  cases o <;> simp [silently]

end Sys2Proof.Machine
end

