-- ==== Sys2Proof/Laws/Load.lean ====
section
/-! SUPPORT. What LOAD answers, said once: the error of its checks with the state kept, the load reset, or the refusal under a
finite MAX_CODE_LEN; and the command in terms of it. -/

namespace Sys2Proof.Machine

/-- A failed check is LOAD's answer, and the state stays (R211). -/
theorem loadWith_error {src : LoadSource} (h : validate src ≠ .ok) (p : Params) (s : State) :
    loadWith p src s = .next (s, validate src) := by
  unfold loadWith
  split
  · contradiction
  · rfl

/-- With every check passed, LOAD resets the machine around the bytecode section if MAX_CODE_LEN admits it (R240, D5). -/
theorem loadWith_ok {src : LoadSource} (h : validate src = .ok) (p : Params) (s : State) :
    loadWith p src s =
      if codeFits p.maxCodeLen (bytecodeSection src).length then .next (loadReset (bytecodeSection src), .ok)
      else .refused .codeTooLong := by
  simp only [loadWith, h]

/-- Everything a LOAD that answers can do. -/
theorem loadWith_next {p : Params} {src : LoadSource} {s s' : State} {r : LoadResult}
    (h : loadWith p src s = .next (s', r)) :
    r = validate src ∧ (r ≠ .ok ∧ s' = s ∨ r = .ok ∧ s' = loadReset (bytecodeSection src)) := by
  by_cases hv : validate src = .ok
  · rw [loadWith_ok hv] at h
    split at h <;> cases h
    exact ⟨hv.symm, .inr ⟨rfl, rfl⟩⟩
  · rw [loadWith_error hv] at h
    cases h
    exact ⟨rfl, .inl ⟨hv, rfl⟩⟩

/-- LOAD never faults, and is refused only under a finite MAX_CODE_LEN. -/
theorem loadWith_stop (p : Params) (src : LoadSource) (s : State) :
    (∀ f, loadWith p src s ≠ .fault f) ∧
      ∀ r, loadWith p src s = .refused r → r = .codeTooLong ∧ ∃ cap, p.maxCodeLen = some cap := by
  by_cases hv : validate src = .ok
  · rw [loadWith_ok hv]
    cases hm : p.maxCodeLen with
    | none => simp [codeFits]
    | some cap => split <;> simp_all
  · simp [loadWith_error hv]

theorem codeFits_none (len : Nat) : codeFits none len = true :=
  rfl

theorem codeFits_some {cap len : Nat} : codeFits (some cap) len = true ↔ len ≤ cap :=
  decide_eq_true_iff

/-- The code that a successful LOAD installs is as long as the size says (R239). -/
theorem length_bytecodeSection {size : Nat} {data : List Byte} (h : size ≤ data.length) :
    (bytecodeSection (.file size data)).length = size - 8 := by
  rw [bytecodeSection, List.length_take, List.length_drop]
  omega

end Sys2Proof.Machine
end

