-- ==== Sys2Proof/Laws/PerInstr.lean ====
section
/-! SUPPORT. The per-instruction family named in LAWS.json: an instruction's encoding is as long as its opcode says, begins
with its opcode byte, and the instruction is well formed (spec/30_encoding.md R70, R71, R73). -/

namespace Sys2Proof.Laws.Encoding

/-- Format OP is one byte and format OP_I64 nine, under every opcode map. -/
def Statement (i : Instr) : Prop :=
  i.wf = true ∧ ∀ m : OpcodeMap,
    (encodeWith m i).length = i.opcode.length ∧ (encodeWith m i).head? = some (m.byteOf i.opcode)

theorem skip : Statement .skip := ⟨rfl, fun _ => ⟨rfl, rfl⟩⟩
theorem pushI64 (imm : Word) : Statement (.pushI64 imm) := ⟨rfl, fun _ => ⟨rfl, rfl⟩⟩
theorem add : Statement .add := ⟨rfl, fun _ => ⟨rfl, rfl⟩⟩
theorem halt : Statement .halt := ⟨rfl, fun _ => ⟨rfl, rfl⟩⟩
theorem sub : Statement .sub := ⟨rfl, fun _ => ⟨rfl, rfl⟩⟩
theorem mul : Statement .mul := ⟨rfl, fun _ => ⟨rfl, rfl⟩⟩
theorem div : Statement .div := ⟨rfl, fun _ => ⟨rfl, rfl⟩⟩
theorem mod : Statement .mod := ⟨rfl, fun _ => ⟨rfl, rfl⟩⟩
theorem pop : Statement .pop := ⟨rfl, fun _ => ⟨rfl, rfl⟩⟩
theorem swap : Statement .swap := ⟨rfl, fun _ => ⟨rfl, rfl⟩⟩

end Sys2Proof.Laws.Encoding
end

