-- ==== Sys2Proof/Tests/Slice0.lean ====
section
/-! SUPPORT. The model's own tests. Expected values come from spec/95_test_vectors.md (named V1 to V10 and section 2 there), from the
tables and worked examples of the rules, or from the encoding tables by hand. The last part shows, for every statement that has
hypotheses, a state and operands that meet them, clause by clause. -/

namespace Sys2Proof.Machine.Tests

/-- A state with the given code, `ip` and stack (signed, bottom first), as after a load. -/
def st (code : List Byte) (ip : Nat) (stack : List Int) : State where
  code := code
  ip := ip
  stack := stack.map w64
  globals := []
  status := .continuing
  reason := .none

/-- What a vector of section 2 fixes, the observation of R114 with the stack's entries signed. -/
def seen (o : StepOutcome) : Option (RunStatus × Reason × Nat × List Int) :=
  (nextState? o).map fun t =>
    let (ru, r, ip, stack) := observation t
    (ru, r, ip, stack.map s64)

/-! ## Well-formedness: one ill-formed term for each check -/

/-- SKIP on SUB's byte: R74 condition 1. -/
theorem test_wf_refuses_shared_byte : OpcodeMap.injective { OpcodeMap.default with skip := 0x04 } = false := by decide

/-- ADD moved off 0x02: R74 condition 2. -/
theorem test_wf_refuses_moved_add : OpcodeMap.sourceValues { OpcodeMap.default with add := 0x0A } = false := by decide

/-- POP on HALT's byte: R74 condition 3. -/
theorem test_wf_refuses_pop_on_halt : OpcodeMap.restApart { OpcodeMap.default with pop := 0x03 } = false := by decide

/-- Two of the six open operations on one byte: R74 condition 3. -/
theorem test_wf_refuses_pop_on_swap : OpcodeMap.restApart { OpcodeMap.default with pop := 0x09 } = false := by decide

theorem test_wf_refuses_params : Params.wf { Params.default with opcodeMap := { OpcodeMap.default with div := 0x05 } } = false := by
  decide

theorem test_wf_accepts_defaults : Params.default.wf = true := by decide

/-- Every immediate is legal: there is no ill-formed instruction (R75). -/
theorem test_wf_accepts_every_instruction (i : Instr) : i.wf = true := by cases i <;> rfl

/-- More bytes delivered than the file has: R232. -/
theorem test_wf_refuses_long_read : LoadSource.wf (.file 1 [0x7A, 0x70]) = false := by decide

/-- The reserved ST, FR and bits of STATUS: R29. -/
theorem test_wf_refuses_reserved_status :
    statusImageWf 0x03 = false ∧ statusImageWf 0x70 = false ∧ statusImageWf 0x04 = false ∧ statusImageWf 0x80 = false := by
  decide

/-- A gap in the code space is not its canonical form. -/
theorem test_wf_refuses_gap : Memory.wf [(0, 0x00), (2, 0x03)] = false := by decide

/-! ## Decoding: bytes written out from R71 and R72 -/

theorem test_decode_skip : decode [0b00000000] = .instr .skip [] := by decide

/-- R81: PUSH_I64 -7. -/
theorem test_decode_push_minus_seven :
    decode [0b00000001, 0xF9, 0xFF, 0xFF, 0xFF, 0xFF, 0xFF, 0xFF, 0xFF, 0x03] =
      .instr (.pushI64 (BitVec.ofInt 64 (-7))) [0x03] := by decide

/-- R81: PUSH_I64 0x0102030405060708. -/
theorem test_decode_push_counting :
    decode [0x01, 0x08, 0x07, 0x06, 0x05, 0x04, 0x03, 0x02, 0x01] = .instr (.pushI64 0x0102030405060708) [] := by decide

theorem test_decode_add : decode [0b00000010] = .instr .add [] := by decide
theorem test_decode_halt : decode [0b00000011] = .instr .halt [] := by decide
theorem test_decode_sub : decode [0b00000100] = .instr .sub [] := by decide
theorem test_decode_mul : decode [0b00000101] = .instr .mul [] := by decide
theorem test_decode_div : decode [0b00000110] = .instr .div [] := by decide
theorem test_decode_mod : decode [0b00000111] = .instr .mod [] := by decide
theorem test_decode_pop : decode [0b00001000] = .instr .pop [] := by decide
theorem test_decode_swap : decode [0b00001001] = .instr .swap [] := by decide

/-- R74: the illegal bytes under the default map; R130: seven immediate bytes are too few. -/
theorem test_decode_refusals :
    decode [0x0A] = .illegal 0x0A ∧ decode [0xFF] = .illegal 0xFF ∧ decode [] = .endOfCode ∧
      decode [0x01, 0x05, 0, 0, 0, 0, 0, 0] = .truncated := by decide

/-- R81, encoded. -/
theorem test_encode_push_minus_seven :
    encode (.pushI64 (BitVec.ofInt 64 (-7))) = [0x01, 0xF9, 0xFF, 0xFF, 0xFF, 0xFF, 0xFF, 0xFF, 0xFF] := by decide

/-- Table words: SWAP in 8 bits, and PUSH_I64 5 in 72 bits, its first byte least significant. -/
theorem test_table_words :
    decodeTableWord 8 0x09 = some .swap ∧ decodeTableWord 72 0x000000000000000501 = some (.pushI64 5) ∧
      decodeTableWord 8 0x01 = some (.pushI64 0) ∧ decodeTableWord 8 0x0A = none := by decide

/-- The first step after reset runs the word placed where it fetches. -/
theorem test_fetch_word_from_reset :
    seen (step (State.reset.withFetchWord 72 0x000000000000000501)) = some (.continuing, .none, 9, [5]) ∧
      seen (step (State.reset.withFetchWord 8 0x03)) = some (.halted, .none, 1, []) := by decide

/-! ## One step of each instruction: section 2 of the vectors -/

theorem test_push_onto_stack :
    seen (step (st [0x01, 0xF9, 0xFF, 0xFF, 0xFF, 0xFF, 0xFF, 0xFF, 0xFF] 0 [1])) = some (.continuing, .none, 9, [1, -7]) := by
  decide

theorem test_push_truncated :
    seen (step (st [0x01, 0x05, 0x00, 0x00] 0 [2])) = some (.failed, .truncatedImmediate, 1, [2]) := by decide

theorem test_pop_leaves_rest : seen (step (st [0x08] 0 [3, 4])) = some (.continuing, .none, 1, [3]) := by decide

theorem test_pop_underflow : seen (step (st [0x08] 0 [])) = some (.failed, .stackUnderflow, 1, []) := by decide

theorem test_swap_top_two : seen (step (st [0x09] 0 [7, 1, 2])) = some (.continuing, .none, 1, [7, 2, 1]) := by decide

theorem test_swap_loses_single : seen (step (st [0x09] 0 [9])) = some (.failed, .stackUnderflow, 1, []) := by decide

theorem test_add_wraps : seen (step (st [0x02] 0 [8, maxValue, 1])) = some (.continuing, .none, 1, [8, minValue]) := by decide

theorem test_add_loses_single : seen (step (st [0x02] 0 [4])) = some (.failed, .stackUnderflow, 1, []) := by decide

theorem test_sub_order : seen (step (st [0x04] 0 [3, 5])) = some (.continuing, .none, 1, [-2]) := by decide

theorem test_sub_wraps : seen (step (st [0x04] 0 [0, minValue])) = some (.continuing, .none, 1, [minValue]) := by decide

theorem test_mul_signs : seen (step (st [0x05] 0 [6, -7])) = some (.continuing, .none, 1, [-42]) := by decide

theorem test_mul_wraps : seen (step (st [0x05] 0 [maxValue, 2])) = some (.continuing, .none, 1, [-2]) := by decide

theorem test_div_truncates : seen (step (st [0x06] 0 [-7, 2])) = some (.continuing, .none, 1, [-3]) := by decide

theorem test_div_by_zero : seen (step (st [0x06] 0 [9, 5, 0])) = some (.failed, .divByZero, 1, [9]) := by decide

theorem test_mod_sign : seen (step (st [0x07] 0 [-7, 2])) = some (.continuing, .none, 1, [-1]) := by decide

/-- R159: underflow is checked before the zero divisor. -/
theorem test_mod_underflow_first : seen (step (st [0x07] 0 [0])) = some (.failed, .stackUnderflow, 1, []) := by decide

/-- The wrap default at MIN and -1: R157. -/
theorem test_min_by_minus_one :
    seen (step (st [0x06] 0 [minValue, -1])) = some (.continuing, .none, 1, [minValue]) ∧
      seen (step (st [0x07] 0 [minValue, -1])) = some (.continuing, .none, 1, [0]) := by decide

theorem test_skip : seen (step (st [0x03, 0x03, 0x03, 0x00] 3 [4])) = some (.continuing, .none, 4, [4]) := by decide

theorem test_halt : seen (step (st [0x03] 0 [1, 2, 3])) = some (.halted, .none, 1, [1, 2, 3]) := by decide

/-- The fetch failures of section 2.5. -/
theorem test_fetch_failures :
    [st [0x03] 1 [], st [0x0A] 0 [5], State.reset].map (fun s => seen (step s)) =
      [some (.failed, .ipOutOfRange, 1, []), some (.failed, .illegalOpcode, 1, [5]), some (.failed, .ipOutOfRange, 0, [])] := by
  decide

/-! ## Host commands -/

/-- V9, cases a to l. -/
theorem test_load_checks :
    validate .unreadable = .unreadable ∧
    validate (.file 7 [0x7A, 0x70, 0x70, 0x00, 0x01, 0x00, 0x00]) = .tooSmall ∧
    validate (.file 9 [0x7A, 0x70, 0x70, 0x01, 0x01, 0x00, 0x00, 0x00, 0x03]) = .badMagic ∧
    validate (.file 9 [0x7A, 0x70, 0x70, 0x00, 0x02, 0x00, 0x00, 0x00, 0x03]) = .badVersion ∧
    validate (.file 9 [0x7A, 0x70, 0x70, 0x00, 0x01, 0x00, 0x01, 0x00, 0x03]) = .badFlags ∧
    validate (.file 8 [0x7A, 0x70, 0x70, 0x00, 0x01, 0x00, 0x00, 0x00]) = .emptyCode ∧
    validate (.file 10 [0x7A, 0x70, 0x70, 0x00, 0x01, 0x00, 0x00, 0x00, 0x03]) = .truncated ∧
    validate (.file 9 [0x7A, 0x70, 0x70, 0x00, 0x01, 0x00, 0x00, 0x00, 0x03]) = .ok ∧
    validate (.file 9 [0x7A, 0x70, 0x70, 0x00, 0x00, 0x01, 0x00, 0x00, 0x03]) = .badVersion ∧
    validate (.file 9 [0x7A, 0x70, 0x70, 0x00, 0x01, 0x00, 0x00, 0x80, 0x03]) = .badFlags ∧
    validate (.file 8 [0, 0, 0, 0, 0, 0, 0, 0]) = .badMagic ∧
    validate (.file 3 [0, 0, 0]) = .tooSmall := by decide

/-- Section 2.6: a second RUN resumes after the HALT, and a third fails at the end. -/
theorem test_run_resumes :
    [st [0x03, 0x03] 0 [], { st [0x03, 0x03] 1 [] with status := .halted }, { st [0x03, 0x03] 2 [] with status := .halted }].map
        (fun s => seen (run s)) =
      [some (.halted, .none, 1, []), some (.halted, .none, 2, []), some (.failed, .ipOutOfRange, 2, [])] := by
  decide

/-- R29's layout: Failed with DIV_BY_ZERO is 0b0101_00_10. -/
theorem test_status_register :
    statusRegister { st [] 0 [] with status := .failed, reason := .divByZero } = 0b01010010 := by decide

/-- R80: separators, a comment, both operand forms; and two texts outside the syntax. -/
theorem test_assembler :
    assemble ['P', 'U', 'S', 'H', '_', 'I', '6', '4', ' ', '-', '7', ';', 'A', 'D', 'D', ' ', '#', ';', 'X', '\n', 'S', 'K', 'I', 'P'] =
      some [0x01, 0xF9, 0xFF, 0xFF, 0xFF, 0xFF, 0xFF, 0xFF, 0xFF, 0x02, 0x00] ∧
    assemble ['P', 'U', 'S', 'H', '_', 'I', '6', '4', ' ', '0', 'x', 'F', 'f'] = some [0x01, 0xFF, 0, 0, 0, 0, 0, 0, 0] ∧
    assemble ['a', 'd', 'd'] = none ∧ assemble ['P', 'U', 'S', 'H', '_', 'I', '6', '4'] = none := by decide

/-- R207: the two model-only outcomes, away from the defaults. -/
theorem test_model_only_outcomes :
    execWith { Params.default with divOvfPolicy := .fault } .div (st [] 0 [minValue, -1]) = .fault .divOverflow ∧
      execWith { Params.default with stackCap := some 1 } (.pushI64 0) (st [1, 0, 0, 0, 0, 0, 0, 0, 0] 1 [4]) =
        .refused .resourceExhausted := by
  exact ⟨rfl, rfl⟩

/-! ## Witnesses: the hypotheses of each statement can be met, clause by clause -/

theorem witness_DecodingIsTheInverseOpcodeMap :
    OpcodeMap.default.injective = true ∧ decodeOpcode OpcodeMap.default 0x0A = none ∧
      decodeWith OpcodeMap.default [0x09] = .instr .swap [] ∧
      decodeOpcode OpcodeMap.default 0x09 = some .swap ∧ Opcode.swap ≠ .pushI64 ∧ 8 ≤ ([0, 0, 0, 0, 0, 0, 0, 0] : List Byte).length ∧
      decodeOpcode OpcodeMap.default 0x01 = some .pushI64 ∧ decodeWith OpcodeMap.default [0x01, 0, 0, 0, 0, 0, 0, 0] = .truncated := by
  decide

/-- An admissible map other than the default: SKIP at 0xFF; and one that only condition 1 admits. -/
theorem witness_DecodeInvertsEncode :
    OpcodeMap.wf { OpcodeMap.default with skip := 0xFF } = true ∧
      OpcodeMap.injective { OpcodeMap.default with add := 0xFF } = true ∧ Instr.wf (.pushI64 0x8000000000000000) = true := by decide

theorem witness_EncodeInvertsDecode :
    decodeWith OpcodeMap.default [0x01, 0, 0, 0, 0, 0, 0, 0, 0x80, 0x09] = .instr (.pushI64 0x8000000000000000) [0x09] := by decide

theorem witness_ProgramCodeReadsBack : OpcodeMap.default.injective = true := by decide

theorem witness_ImmediateIsLittleEndian : OpcodeMap.injective { OpcodeMap.default with swap := 0x10 } = true := by decide

theorem witness_StepRunsDecodedInstruction :
    decode ((st [0x00, 0x09] 1 [1, 2]).code.drop (st [0x00, 0x09] 1 [1, 2]).ip) = .instr .swap [] := by decide

theorem witness_RangeCheck_past_end : (st [0x03] 1 []).code.length ≤ (st [0x03] 1 []).ip := by decide

theorem witness_RangeCheck_inside :
    (st [0x00] 0 []).ip < (st [0x00] 0 []).code.length ∧ step (st [0x00] 0 []) = .next (st [0x00] 1 []) :=
  ⟨by decide, rfl⟩

theorem witness_ByteOutsideTheMapIsIllegal :
    codeByte (st [0x0A] 0 []) 0 = some 0x0A ∧
      (∀ o ∈ Opcode.all, OpcodeMap.default.byteOf o ≠ 0x0A) := by decide

theorem witness_ByteOutsideTheMapIsIllegal_raised :
    (nextState? (stepWith Params.default (st [0xFF] 0 []))).map State.reason = some .illegalOpcode := by decide

theorem witness_CodeAndGlobalsAreNeverWritten :
    exec .pop (st [0x08] 1 [4]) = .next (st [0x08] 1 []) ∧ stepWith Params.default (st [0x08] 0 [4]) = .next (st [0x08] 1 []) :=
  ⟨rfl, rfl⟩

/-- The three moves of `ip`: 0, 9 and 1. -/
theorem witness_StepMovesInstructionPointer :
    step (st [] 0 []) = .next { st [] 0 [] with status := .failed, reason := .ipOutOfRange } ∧
    step (st [0x01, 5, 0, 0, 0, 0, 0, 0, 0] 0 []) = .next (st [0x01, 5, 0, 0, 0, 0, 0, 0, 0] 9 [5]) ∧
    step (st [0x01] 0 []) = .next { st [0x01] 1 [] with status := .failed, reason := .truncatedImmediate } :=
  ⟨rfl, rfl, rfl⟩

theorem witness_StepKeepsInvariant : (st [0x03] 0 [7]).Inv ∧ step (st [0x03] 0 [7]) = .next { st [0x03] 1 [7] with status := .halted } :=
  ⟨by decide, rfl⟩

/-- Each command from a state that meets the invariant and is not the one after construction. -/
theorem witness_CommandKeepsInvariant :
    (st [0x03] 0 [7]).Inv ∧
    command .step (st [0x03] 0 [7]) = .next ({ st [0x03] 1 [7] with status := .halted }, .nothing) ∧
    commandWith { Params.default with stackCap := some 1 } .run (st [0x03] 0 [7]) =
      .next ({ st [0x03] 1 [7] with status := .halted }, .nothing) ∧
    command (.load (.file 9 (container [0x03]))) (st [0x00] 1 [7]) = .next (st [0x03] 0 [], .loaded .ok) ∧
    command (.read .status) (st [0x03] 0 [7]) = .next (st [0x03] 0 [7], .status 0) :=
  ⟨by decide, rfl, rfl, rfl, rfl⟩

theorem witness_ReachableStatesMeetInvariant : Reachable { State.reset with status := .failed, reason := .ipOutOfRange } :=
  .command .step .construction rfl

theorem witness_OnlyHaltReachesHalted :
    step (st [0x03] 0 []) = .next { st [0x03] 1 [] with status := .halted } ∧ decode (List.drop 0 [0x03]) = .instr .halt [] :=
  ⟨rfl, by decide⟩

/-- The failing steps at the boundaries of their clauses: nothing dropped before the pops, depths zero and one at an underflow,
depth two at a zero divisor. -/
theorem witness_FailingStepIsNotRolledBack :
    step (st [] 0 [1]) = .next { st [] 0 [1] with status := .failed, reason := .ipOutOfRange } ∧
    step (st [0x01] 0 [1]) = .next { st [0x01] 1 [1] with status := .failed, reason := .truncatedImmediate } ∧
    step (st [0x0A] 0 [1]) = .next { st [0x0A] 1 [1] with status := .failed, reason := .illegalOpcode } ∧
    step (st [0x02] 0 []) = .next { st [0x02] 1 [] with status := .failed, reason := .stackUnderflow } ∧
    step (st [0x02] 0 [1]) = .next { st [0x02] 1 [] with status := .failed, reason := .stackUnderflow } ∧
    step (st [0x06] 0 [1, 0]) = .next { st [0x06] 1 [] with status := .failed, reason := .divByZero } ∧
    step (st [0x07] 0 [9, 1, 0]) = .next { st [0x07] 1 [9] with status := .failed, reason := .modByZero } :=
  ⟨rfl, rfl, rfl, rfl, rfl, rfl, rfl⟩

/-- Each reason is raised by some step. -/
theorem witness_CauseOfEachFailureReason :
    [st [0x03] 1 [], st [0x01, 0, 0, 0, 0, 0, 0, 0] 0 [], st [0x0A] 0 [], st [0x09] 0 [1], st [0x08] 0 [], st [0x06] 0 [1, 0],
      st [0x07] 0 [1, 0]].map (fun s => (nextState? (step s)).map State.reason) =
    [some .ipOutOfRange, some .truncatedImmediate, some .illegalOpcode, some .stackUnderflow, some .stackUnderflow,
      some .divByZero, some .modByZero] := by decide

theorem witness_OnlyPushDeepensTheStack :
    step (st [0x01, 5, 0, 0, 0, 0, 0, 0, 0] 0 [2]) = .next (st [0x01, 5, 0, 0, 0, 0, 0, 0, 0] 9 [2, 5]) ∧
      (st [] 0 [2]).stack.length < (st [] 0 [2, 5]).stack.length :=
  ⟨rfl, by decide⟩

theorem witness_EntriesBelowTopTwoStay :
    stepWith Params.default (st [0x09] 0 [7, 1, 2]) = .next (st [0x09] 1 [7, 2, 1]) ∧ 0 + 2 < (st [] 0 [7, 1, 2]).stack.length :=
  ⟨rfl, by decide⟩

/-- Two states that differ in the globals, ST and FR, for each of the three outcomes. -/
theorem witness_StepReadsCodeIpAndStackOnly :
    stepWith Params.default { st [0x08] 0 [4] with globals := [1], status := .failed, reason := .divByZero } =
      .next { st [0x08] 1 [] with globals := [1] } ∧
    stepWith { Params.default with divOvfPolicy := .fault } (st [0x06] 0 [minValue, -1]) = .fault .divOverflow ∧
    stepWith { Params.default with stackCap := some 0 } (st [0x01, 0, 0, 0, 0, 0, 0, 0, 0] 0 []) = .refused .resourceExhausted :=
  ⟨rfl, rfl, rfl⟩

theorem witness_HaltEndsTheRun : codeByte (st [0x00, 0x03, 0x0A] 1 []) 1 = some 0x03 := by decide

/-- Eight bytes left exactly, and seven. -/
theorem witness_PushI64PushesItsImmediate :
    (st [0x01, 5, 0, 0, 0, 0, 0, 0, 0] 1 []).ip + 8 ≤ (st [0x01, 5, 0, 0, 0, 0, 0, 0, 0] 1 []).code.length ∧
    (st [0x01, 5, 0, 0, 0, 0, 0, 0] 1 []).code.length < (st [0x01, 5, 0, 0, 0, 0, 0, 0] 1 []).ip + 8 ∧
    (st [0x01, 5, 0, 0, 0, 0, 0, 0, 0] 0 []).code.drop 0 = [0x01, 5, 0, 0, 0, 0, 0, 0, 0] ∧
    codeByte (st [0x01, 5, 0, 0, 0, 0, 0, 0] 0 []) 0 = some 0x01 ∧
    (st [0x01, 5, 0, 0, 0, 0, 0, 0] 0 []).code.length - (0 + 1) < 8 := by decide

/-- The shapes of the stack that the stack and arithmetic instructions are stated on: empty, one entry, two at the top. -/
theorem witness_StackShapes :
    (st [] 0 []).stack = [] ∧ (st [] 0 [4]).stack = [] ++ [w64 4] ∧ (st [] 0 [4]).stack.length < 2 ∧
      (st [] 0 [9, 5, 3]).stack = [w64 9] ++ [w64 5, w64 3] := by decide

/-- The operand pairs that DIV and MOD are stated on: a plain one next to the overflow pair, that pair, and a zero divisor. -/
theorem witness_DivisionOperands :
    s64 (w64 (-1)) ≠ 0 ∧ ¬(s64 (w64 maxValue) = minValue ∧ s64 (w64 (-1)) = -1) ∧
      s64 (w64 minValue) = minValue ∧ s64 (w64 (-1)) = -1 ∧ s64 (w64 0) = 0 := by decide

theorem witness_ArithmeticPopsTwoPushesOne :
    exec .sub (st [] 0 [4]) = .next { st [] 0 [] with status := .failed, reason := .stackUnderflow } ∧
    exec .sub (st [] 0 [9, 3, 5]) = .next (st [] 0 [9, -2]) ∧
    exec .mod (st [] 0 [9, 3, 0]) = .next { st [] 0 [9] with status := .failed, reason := .modByZero } :=
  ⟨rfl, rfl, rfl⟩

theorem witness_WrapReducesIntoSignedRange : minValue ≤ minValue ∧ minValue ≤ maxValue ∧ wrap (maxValue + 1) = minValue := by decide

/-- The operands of the identity: a pair next to the overflow pair, that pair, with the boundary divisor. -/
theorem witness_DivisionIdentity :
    (st [] 0 [9, maxValue, -1]).stack = [w64 9] ++ [w64 maxValue, w64 (-1)] ∧ s64 (w64 (-1)) ≠ 0 ∧
      ¬(s64 (w64 maxValue) = minValue ∧ s64 (w64 (-1)) = -1) ∧
      (st [] 0 [minValue, -1]).stack = [] ++ [w64 minValue, w64 (-1)] ∧ s64 (w64 minValue) = minValue ∧ s64 (w64 (-1)) = -1 := by
  decide

theorem witness_PushThenPopRestoresTheStack :
    (st [0x01, 0, 0, 0, 0, 0, 0, 0, 0x80, 0x08, 0x03] 0 []).code.drop 0 =
      encode (.pushI64 0x8000000000000000) ++ (encode .pop ++ [0x03]) := by decide

theorem witness_SwapTwiceRestoresTheStack :
    2 ≤ (st [0x09, 0x09] 0 [1, 2]).stack.length ∧ (st [0x09, 0x09] 0 [1, 2]).code.drop 0 = encode .swap ++ (encode .swap ++ []) := by
  decide

/-- V6: three SKIPs, and none. -/
theorem witness_SkipsThenHaltAlwaysHalts :
    (st [0x00, 0x00, 0x00, 0x03] 0 []).code.drop 0 = List.replicate 3 0x00 ++ 0x03 :: [] ∧
      (st [0x03] 0 []).code.drop 0 = List.replicate 0 0x00 ++ 0x03 :: [] := by decide

theorem witness_EveryRunEnds : runBound (st [0x03] 0 []) ≤ 2 := by decide

theorem witness_RunRepeatsStepsWhileContinuing :
    step (st [0x00] 0 []) = .next (st [0x00] 1 []) ∧ (st [0x00] 1 []).status = .continuing ∧
    step (st [0x03] 0 []) = .next { st [0x03] 1 [] with status := .halted } ∧
    { st [0x03] 1 [] with status := .halted }.status ≠ .continuing :=
  ⟨rfl, rfl, rfl, by decide⟩

theorem witness_RunResumesAtTheInstructionPointer :
    (st [0x03] 0 [7]).code.length - (st [0x03] 0 [7]).ip + 1 ≤ 2 ∧
    run (st [0x03] 0 []) = .next { st [0x03] 1 [] with status := .halted } ∧ (st [] 0 []).code.length ≤ (st [] 0 []).ip :=
  ⟨by decide, rfl, by decide⟩

theorem witness_FailedLoadChangesNothing :
    loadWith Params.default .unreadable (st [0x03] 1 [8]) = .next (st [0x03] 1 [8], .unreadable) ∧ LoadResult.unreadable ≠ .ok :=
  ⟨rfl, by decide⟩

/-- The clauses of the checks at their boundaries: sizes 7, 8 and 9, seven and eight delivered bytes, one wrong bit each, and a
limit that just admits the code. -/
theorem witness_LoadChecksInOrder :
    7 < 8 ∧ 8 ≤ 8 ∧ (List.replicate 7 (0x00 : Byte)).length < 8 ∧
    ([0x7A, 0x70, 0x70, 0x01, 0x01, 0x00, 0x00, 0x00] : List Byte).take 4 ≠ [0x7A, 0x70, 0x70, 0x00] ∧
    ¬((0x01 : Byte) = 0x01 ∧ (0x01 : Byte) = 0x00) ∧ ¬((0x00 : Byte) = 0x00 ∧ (0x80 : Byte) = 0x00) ∧
    8 < 9 ∧ ([] : List Byte).length < 9 - 8 ∧ 9 - 8 ≤ ([0x03] : List Byte).length ∧
    Params.maxCodeLen { Params.default with maxCodeLen := some 1 } = some 1 ∧ 9 - 8 ≤ 1 := by decide

/-- Each load error of the table in section 2 of spec/60_exceptions.md comes back from LOAD itself, with its code. -/
theorem test_load_error_codes :
    [LoadSource.unreadable, .file 7 [], .file 8 [0, 0, 0, 0, 0, 0, 0, 0], .file 8 [0x7A, 0x70, 0x70, 0x00, 2, 0, 0, 0],
      .file 8 [0x7A, 0x70, 0x70, 0x00, 1, 0, 0, 1], .file 8 [0x7A, 0x70, 0x70, 0x00, 1, 0, 0, 0],
      .file 9 [0x7A, 0x70, 0x70, 0x00, 1, 0, 0, 0]].map
        (fun src => match load src (st [0x03] 1 [8]) with
          | .next (s, r) => some (s == st [0x03] 1 [8], r.code)
          | .fault _ => none
          | .refused _ => none) =
    [some (true, 1), some (true, 2), some (true, 3), some (true, 4), some (true, 5), some (true, 6), some (true, 7)] := by decide

/-- A program of one byte at the limits one, which admits it, and zero, which does not; an error; and no limit. -/
theorem witness_FiniteMaxCodeLenRefusesLongerPrograms :
    load (.file 9 (container [0x03])) State.reset = .next (st [0x03] 0 [], .ok) ∧
    (st [0x03] 0 []).code.length ≤ 1 ∧ 0 < (st [0x03] 0 []).code.length ∧
    load .unreadable State.reset = .next (State.reset, .unreadable) ∧ LoadResult.unreadable ≠ .ok ∧
    Params.maxCodeLen { Params.default with maxCodeLen := some 0 } = some 0 ∧ Params.default.maxCodeLen = none :=
  ⟨rfl, by decide, by decide, rfl, by decide, rfl, rfl⟩

theorem test_load_limit_refuses :
    loadWith { Params.default with maxCodeLen := some 0 } (.file 9 (container [0x03])) State.reset = .refused .codeTooLong := rfl

theorem witness_LoadErrorCodes : LoadResult.code .truncated = LoadResult.code .truncated := rfl

theorem witness_LoadIsAllOrNothing :
    ([0x03] : List Byte) ≠ [] ∧ load (.file 9 (container [0x03])) (st [0x00] 1 [8]) = .next (st [0x03] 0 [], .ok) :=
  ⟨by decide, rfl⟩

theorem witness_FlagsAreViewsOfTheReason :
    step (st [0x06] 0 [1, 0]) = .next { st [0x06] 1 [] with status := .failed, reason := .divByZero } := rfl

theorem witness_HostCommands :
    step (st [0x00] 0 []) = .next (st [0x00] 1 []) ∧ run (st [0x03] 0 []) = .next { st [0x03] 1 [] with status := .halted } ∧
      load .unreadable (st [] 0 []) = .next (st [] 0 [], .unreadable) :=
  ⟨rfl, rfl, rfl⟩

/-- The overflow pair on top; then, for the clause on everything else, DIV on one entry alone, a pair next to the overflow pair and
another instruction on that pair; and a step that does not fault. -/
theorem witness_FaultPolicyStopsOnlyAtMinByMinusOne :
    Params.divOvfPolicy { Params.default with divOvfPolicy := .fault } = .fault ∧
    (st [] 0 [minValue, -1]).stack = [] ++ [w64 minValue, w64 (-1)] ∧ s64 (w64 minValue) = minValue ∧ s64 (w64 (-1)) = -1 ∧
    (st [] 0 [-1]).stack.length < 2 ∧ s64 (w64 (minValue + 1)) ≠ minValue ∧ Instr.swap ≠ .div ∧ Instr.swap ≠ .mod ∧
    stepWith { Params.default with divOvfPolicy := .fault } (st [0x09] 0 [minValue, -1]) = .next (st [0x09] 1 [-1, minValue]) :=
  ⟨rfl, by decide, by decide, by decide, by decide, by decide, by decide, by decide, rfl⟩

/-- A stack at the cap and one below it, with eight bytes left. -/
theorem witness_FiniteStackCapRefusesThePush :
    Params.stackCap { Params.default with stackCap := some 1 } = some 1 ∧ (st [] 0 [4]).stack.length = 1 ∧ (st [] 0 []).stack.length < 1 ∧
      0 + 8 ≤ (st [0, 0, 0, 0, 0, 0, 0, 0] 0 []).code.length := by decide

theorem witness_FiniteStackCapRefusesThePush_step :
    stepWith { Params.default with stackCap := some 1 } (st [0x08] 0 [4]) = .next (st [0x08] 1 []) := rfl

theorem witness_ModelStopsOnlyAwayFromDefaults :
    stepWith { Params.default with divOvfPolicy := .fault } (st [0x07] 0 [minValue, -1]) = .fault .divOverflow ∧
    stepWith { Params.default with stackCap := some 0 } (st [0x01, 0, 0, 0, 0, 0, 0, 0, 0] 0 []) = .refused .resourceExhausted :=
  ⟨rfl, rfl⟩

/-- Each stop of a host command: STEP's fault, RUN's refusal and LOAD's. -/
theorem witness_ModelStopsOnlyAwayFromDefaults_command :
    commandWith { Params.default with divOvfPolicy := .fault } .step (st [0x07] 0 [minValue, -1]) = .fault .divOverflow ∧
    commandWith { Params.default with stackCap := some 0 } .run (st [0x01, 0, 0, 0, 0, 0, 0, 0, 0] 0 []) =
      .refused .resourceExhausted ∧
    commandWith { Params.default with maxCodeLen := some 0 } (.load (.file 9 (container [0x03]))) State.reset =
      .refused .codeTooLong :=
  ⟨rfl, rfl, rfl⟩

theorem witness_SourceOpcodesDoNotDependOnTheMap :
    Params.default.wf = true ∧ OpcodeMap.wf { OpcodeMap.default with skip := 0x20 } = true ∧
      codeByte (st [0x06] 0 [7, 2]) 0 = some 0x06 := by decide

end Sys2Proof.Machine.Tests
end

section
/-! Proofs of the byte order of the immediate (spec/20_memory.md R53): what the opcode decoder and the decoder answer on an
encoded opcode byte, and the assembled word as a number and as a signed number. -/

namespace Sys2Proof

/-- An injective map decodes each of its bytes to the operation that the byte was given to (R73, R74 condition 1). -/
theorem decodeOpcode_byteOf {m : OpcodeMap} (hm : m.injective = true) (o : Opcode) :
    decodeOpcode m (m.byteOf o) = some o := by
  cases h : decodeOpcode m (m.byteOf o) with
  | none => exact absurd rfl (decodeOpcode_eq_none_iff.1 h o)
  | some o' => rw [OpcodeMap.byteOf_injective hm (byteOf_of_decodeOpcode h)]

/-- PUSH_I64's opcode byte leaves the rest to the immediate's decoder, under any injective map (R71, R75). -/
theorem decodeWith_pushI64 {m : OpcodeMap} (hm : m.injective = true) (rest : List Byte) :
    decodeWith m (m.pushI64 :: rest) = decodeImmediate rest := by
  have h : decodeOpcode m m.pushI64 = some .pushI64 := decodeOpcode_byteOf hm .pushI64
  simp [decodeWith, h]

/-- One byte set below a number of any width: the digit step of little-endian assembly. -/
theorem toNat_append_byte {n : Nat} (x : BitVec n) (b : Byte) :
    (x ++ b).toNat = 2 ^ 8 * x.toNat + b.toNat := by
  rw [BitVec.toNat_append, ← Nat.shiftLeft_add_eq_or_of_lt b.isLt, Nat.shiftLeft_eq, Nat.mul_comm]

/-- The assembled word is the base-256 number whose digits are the bytes, the lowest address least significant (R53). -/
theorem le64_toNat (b0 b1 b2 b3 b4 b5 b6 b7 : Byte) :
    (le64 b0 b1 b2 b3 b4 b5 b6 b7).toNat =
      b0.toNat + 2 ^ 8 * b1.toNat + 2 ^ 16 * b2.toNat + 2 ^ 24 * b3.toNat + 2 ^ 32 * b4.toNat +
        2 ^ 40 * b5.toNat + 2 ^ 48 * b6.toNat + 2 ^ 56 * b7.toNat := by
  simp only [le64, toNat_append_byte]
  omega

/-- The last byte decides which half of the word's range the assembled word lies in. -/
theorem le64_toNat_lt_half_iff (b0 b1 b2 b3 b4 b5 b6 b7 : Byte) :
    2 * (le64 b0 b1 b2 b3 b4 b5 b6 b7).toNat < 2 ^ 64 ↔ b7.toNat < 128 := by
  rw [le64_toNat]
  omega

/-- The two's-complement reading of an assembled word: negative exactly when the last byte is 128 or more (R8, R53). -/
theorem s64_le64 (b0 b1 b2 b3 b4 b5 b6 b7 : Byte) :
    Machine.s64 (le64 b0 b1 b2 b3 b4 b5 b6 b7) =
      ((le64 b0 b1 b2 b3 b4 b5 b6 b7).toNat : Int) - (if b7.toNat < 128 then 0 else 2 ^ 64) := by
  simp only [Machine.s64, BitVec.toInt_eq_toNat_cond, le64_toNat_lt_half_iff]
  by_cases h : b7.toNat < 128
  · simp [h]
  · simp [h]

/-- Settles O7: the decoder answers `le64` of the eight bytes, whose value and sign the lemmas above give. -/
theorem immediateIsLittleEndian : Obligations.ImmediateIsLittleEndian := by
  unfold Obligations.ImmediateIsLittleEndian
  intro m hm b0 b1 b2 b3 b4 b5 b6 b7 rest
  exact ⟨le64 b0 b1 b2 b3 b4 b5 b6 b7, decodeWith_pushI64 hm _, rfl, le64_toNat .., s64_le64 ..⟩

end Sys2Proof
end

section
/-! Proofs of the opcode decoder as the inverse of the opcode map (spec/30_encoding.md R73) and of the step on a byte
outside the map (R77): the decoder's three answers on a non-empty list, and which steps raise ILLEGAL_OPCODE. -/

namespace Sys2Proof

/-- On one byte the opcode decoder is the inverse of an injective map (R73). -/
theorem decodeOpcode_eq_some_iff {m : OpcodeMap} (hm : m.injective = true) {b : Byte} {o : Opcode} :
    decodeOpcode m b = some o ↔ m.byteOf o = b := by
  refine ⟨byteOf_of_decodeOpcode, ?_⟩
  rintro rfl
  exact decodeOpcode_byteOf hm o

theorem Opcode.length_eq (o : Opcode) : o.length = if o = .pushI64 then 9 else 1 := by
  cases o <;> rfl

/-- The length that an opcode fixes counts its byte and the operand bytes (R71, R73). -/
theorem Instr.opcode_length (i : Instr) : i.opcode.length = i.operandBytes.length + 1 := by
  cases i <;> rfl

theorem Instr.operandBytes_eq_nil {i : Instr} (h : i.opcode ≠ .pushI64) : i.operandBytes = [] := by
  cases i with
  | pushI64 v => exact absurd rfl h
  | skip | add | halt | sub | mul | div | mod | pop | swap => rfl

/-- PUSH_I64's operand bytes are eight. -/
theorem Instr.length_operandBytes_of_pushI64 {i : Instr} (h : i.opcode = .pushI64) : i.operandBytes.length = 8 := by
  have hl := i.opcode_length
  rw [h] at hl
  exact Nat.succ.inj hl.symm

/-- The decoder's three answers on a non-empty list: illegal, truncated, or an instruction whose operand bytes come right after
the opcode byte (R73, R130). -/
theorem decodeWith_cons_answers (m : OpcodeMap) (b : Byte) (rest : List Byte) :
    (decodeOpcode m b = none ∧ decodeWith m (b :: rest) = .illegal b) ∨
    (decodeOpcode m b = some .pushI64 ∧ rest.length < 8 ∧ decodeWith m (b :: rest) = .truncated) ∨
    (∃ (i : Instr) (rest' : List Byte), decodeOpcode m b = some i.opcode ∧ rest = i.operandBytes ++ rest' ∧
      decodeWith m (b :: rest) = .instr i rest') := by
  rcases decodeWith_cons_cases m b rest with hill | ⟨ho, hd⟩ | ⟨i, hi, ho, hd⟩
  · exact .inl hill
  · rcases decodeImmediate_cases rest with ⟨hlt, himm⟩ | ⟨v, rest', hrest, himm⟩
    · exact .inr (.inl ⟨ho, hlt, hd.trans himm⟩)
    · exact .inr (.inr ⟨.pushI64 v, rest', ho, hrest, hd.trans himm⟩)
  · exact .inr (.inr ⟨i, rest, ho, by simp [Instr.operandBytes_eq_nil hi], hd⟩)

section Answers

variable {m : OpcodeMap} {b : Byte} {rest : List Byte}

/-- A byte outside the map is illegal, whatever follows it (R77). -/
theorem decodeWith_illegal (h : decodeOpcode m b = none) : decodeWith m (b :: rest) = .illegal b := by
  simp [decodeWith, h]

/-- A decoded instruction is of the byte's operation, and takes the bytes that its opcode fixes (R73). -/
theorem opcode_and_length_of_decodeWith {i : Instr} {rest' : List Byte} (h : decodeWith m (b :: rest) = .instr i rest') :
    decodeOpcode m b = some i.opcode ∧ rest.length + 1 = i.opcode.length + rest'.length := by
  rcases decodeWith_cons_answers m b rest with ⟨_, hd⟩ | ⟨_, _, hd⟩ | ⟨j, tail, ho, hrest, hd⟩ <;> rw [hd] at h <;> cases h
  refine ⟨ho, ?_⟩
  rw [hrest, List.length_append, i.opcode_length]
  omega

/-- Truncation is PUSH_I64's alone, and happens exactly below eight operand bytes (R130). -/
theorem decodeWith_eq_truncated_iff :
    decodeWith m (b :: rest) = .truncated ↔ decodeOpcode m b = some .pushI64 ∧ rest.length < 8 := by
  rcases decodeWith_cons_answers m b rest with ⟨ho, hd⟩ | ⟨ho, hlt, hd⟩ | ⟨i, tail, ho, hrest, hd⟩
  · simp [ho, hd]
  · simp [ho, hd, hlt]
  · have hlong (hi : i.opcode = .pushI64) : 8 ≤ rest.length := by
      rw [hrest, List.length_append, Instr.length_operandBytes_of_pushI64 hi]
      omega
    simpa [ho, hd] using hlong

/-- A legal byte with its operand bytes decodes to an instruction of its operation. -/
theorem decodeWith_legal {o : Opcode} (ho : decodeOpcode m b = some o) (hlen : o ≠ .pushI64 ∨ 8 ≤ rest.length) :
    ∃ (i : Instr) (rest' : List Byte), decodeWith m (b :: rest) = .instr i rest' ∧ i.opcode = o := by
  rcases decodeWith_cons_answers m b rest with ⟨hnone, _⟩ | ⟨hpush, hlt, _⟩ | ⟨i, rest', hi, _, hd⟩
  · cases hnone.symm.trans ho
  · cases hpush.symm.trans ho
    rcases hlen with hne | hle
    · exact absurd rfl hne
    · omega
  · exact ⟨i, rest', hd, Option.some.inj (hi.symm.trans ho)⟩

end Answers

/-- Settles O2: the opcode decoder inverts the map, and the decoder's answers on a non-empty list give the clauses on what
follows the byte. -/
theorem decodingIsTheInverseOpcodeMap : Obligations.DecodingIsTheInverseOpcodeMap := by
  unfold Obligations.DecodingIsTheInverseOpcodeMap
  intro m hm b
  refine ⟨fun _ => decodeOpcode_eq_some_iff hm, decodeOpcode_eq_none_iff, fun rest => ?_, Opcode.length_eq⟩
  exact ⟨decodeWith_illegal, fun _ => decodeWith_legal, fun _ _ => opcode_and_length_of_decodeWith,
    decodeWith_eq_truncated_iff⟩

namespace Machine

variable {p : Params} {s s' : State}

/-- A byte that the opcode decoder has no operation for ends the step one past it (R77, R101). -/
theorem stepWith_illegal {b : Byte} (hb : codeByte s s.ip = some b) (ho : decodeOpcode p.opcodeMap b = none) :
    stepWith p s = raise .illegalOpcode (s.advance 1) := by
  have hd : decodeWith p.opcodeMap (remainingCode s) = .illegal b := by
    rw [remainingCode_eq_cons hb, decodeWith_illegal ho]
  simp [stepWith, fetchWith, hd]

theorem reason_of_raise {r : Reason} (h : raise r s = .next s') : s'.reason = r := by
  rw [raise_eq_next.mp h, State.setStatus_reason]

/-- Only the fetch raises ILLEGAL_OPCODE: no instruction's own meaning does. -/
theorem execWith_reason_ne_illegalOpcode {i : Instr} (h : execWith p i s = .next s') : s'.reason ≠ .illegalOpcode := by
  obtain ⟨_, _, _, _, _, _, _, _, _, _, hend⟩ := execWith_next h
  rcases hend with ⟨_, hr⟩ | ⟨_, hr, _⟩ | ⟨hf, _⟩
  · simp [hr]
  · simp [hr]
  · rcases execWith_failed h hf with ⟨hr, _⟩ | ⟨hr, _⟩ | ⟨hr | hr, _⟩ <;> simp [hr]

/-- A step that raises ILLEGAL_OPCODE was on a byte that the opcode decoder has no operation for. -/
theorem illegal_byte_of_stepWith (h : stepWith p s = .next s') (hr : s'.reason = .illegalOpcode) :
    ∃ b, codeByte s s.ip = some b ∧ decodeOpcode p.opcodeMap b = none := by
  rcases stepWith_cases p s with ⟨_, _, hs⟩ | ⟨b, hb, ho, _, _⟩ | ⟨_, _, _, _, _, hs⟩ | ⟨_, i, _, _, _, _, _, hs⟩
  · rw [hs] at h
    cases (reason_of_raise h).symm.trans hr
  · exact ⟨b, hb, ho⟩
  · rw [hs] at h
    cases (reason_of_raise h).symm.trans hr
  · rw [hs] at h
    exact absurd hr (execWith_reason_ne_illegalOpcode h)

/-- Settles O10: the bytes outside the map are those the opcode decoder has no operation for, and the two lemmas above say what
a step does on them and that no other step raises the reason. -/
theorem byteOutsideTheMapIsIllegal : Obligations.ByteOutsideTheMapIsIllegal := by
  unfold Obligations.ByteOutsideTheMapIsIllegal
  refine fun p s => ⟨fun b hb hout => stepWith_illegal hb (decodeOpcode_eq_none_iff.mpr hout), fun s' h hr => ?_⟩
  obtain ⟨b, hb, ho⟩ := illegal_byte_of_stepWith h hr
  exact ⟨b, hb, decodeOpcode_eq_none_iff.mp ho⟩

end Machine

end Sys2Proof
end

section
/-! Proofs of the step's only precondition (spec/40_engine.md R100), of the absorption of every failure by the step (R104) and of
the run loop (R110): what an answered step can be, that no step reads ST or FR, and that the fuel of R111 is always enough. -/

namespace Sys2Proof.Machine

variable {p : Params} {s s' : State}

/-! ## What an answered step can be -/

theorem ip_lt_of_codeByte {b : Byte} (h : codeByte s s.ip = some b) : s.ip < s.code.length :=
  (List.getElem?_eq_some_iff.mp h).1

/-- Past the end of the code the step ends at the range check (R100). -/
theorem stepWith_pastEnd (h : s.code.length ≤ s.ip) : stepWith p s = raise .ipOutOfRange s := by
  simp [stepWith, fetchWith, remainingCode_eq_nil_iff.mpr h, decodeWith]

/-- An answered step failed the range check, failed at the fetch one past the opcode byte, or ran an instruction from there. -/
theorem stepWith_next (h : stepWith p s = .next s') :
    (s.code.length ≤ s.ip ∧ s' = s.setStatus .failed .ipOutOfRange) ∨
    (s.ip < s.code.length ∧
      ∃ r ∈ [Reason.illegalOpcode, .truncatedImmediate], s' = (s.advance 1).setStatus .failed r) ∨
    (s.ip < s.code.length ∧ ∃ i, execWith p i (s.advance 1) = .next s') := by
  rcases stepWith_cases p s with ⟨hge, _, hs⟩ | ⟨b, hb, _, _, hs⟩ | ⟨b, hb, _, _, _, hs⟩ | ⟨b, i, _, hb, _, _, _, hs⟩ <;>
    rw [hs] at h
  · exact .inl ⟨hge, raise_eq_next.mp h⟩
  · exact .inr (.inl ⟨ip_lt_of_codeByte hb, _, by simp, raise_eq_next.mp h⟩)
  · exact .inr (.inl ⟨ip_lt_of_codeByte hb, _, by simp, raise_eq_next.mp h⟩)
  · exact .inr (.inr ⟨ip_lt_of_codeByte hb, i, h⟩)

/-- The reasons that an instruction's own meaning can leave (R201). -/
theorem execWith_reason_mem {i : Instr} (h : execWith p i s = .next s') :
    s'.reason ∈ [Reason.none, .truncatedImmediate, .stackUnderflow, .divByZero, .modByZero] := by
  obtain ⟨_, _, _, _, _, _, _, _, _, _, hend⟩ := execWith_next h
  rcases hend with ⟨_, hr⟩ | ⟨_, hr, _⟩ | ⟨hf, _⟩
  · simp [hr]
  · simp [hr]
  · rcases execWith_failed h hf with ⟨hr, _⟩ | ⟨hr, _⟩ | ⟨hr | hr, _⟩ <;> simp [hr]

theorem execWith_ip_le {i : Instr} (h : execWith p i s = .next s') : s.ip ≤ s'.ip := by
  obtain ⟨_, _, _, _, _, _, _, _, _, hip | ⟨_, _, hip, _⟩, _⟩ := execWith_next h <;> omega

theorem execWith_code {i : Instr} (h : execWith p i s = .next s') : s'.code = s.code := by
  obtain ⟨_, _, _, _, _, _, _, hcode, _⟩ := execWith_next h
  exact hcode

theorem execWith_failed_iff {i : Instr} (h : execWith p i s = .next s') : s'.status = .failed ↔ s'.reason ≠ .none := by
  obtain ⟨_, _, _, _, _, _, _, _, _, _, hend⟩ := execWith_next h
  rcases hend with ⟨hst, hr⟩ | ⟨hst, hr, _⟩ | ⟨hst, hr, _⟩ <;> simp [hst, hr]

/-- Inside the code the range check passes: no step raises its reason there, and each consumes its opcode byte (R100, R101). -/
theorem stepWith_inside (hlt : s.ip < s.code.length) (h : stepWith p s = .next s') :
    s'.reason ≠ .ipOutOfRange ∧ s.ip < s'.ip := by
  rcases stepWith_next h with ⟨hge, _⟩ | ⟨_, r, hr, rfl⟩ | ⟨_, i, hi⟩
  · omega
  · refine ⟨?_, by simp⟩
    rintro rfl
    simp at hr
  · have hmem := execWith_reason_mem hi
    have hip := execWith_ip_le hi
    refine ⟨fun hr => by simp [hr] at hmem, ?_⟩
    rw [State.advance_ip] at hip
    omega

theorem stepWith_code (h : stepWith p s = .next s') : s'.code = s.code := by
  rcases stepWith_next h with ⟨_, rfl⟩ | ⟨_, _, _, rfl⟩ | ⟨_, i, hi⟩
  · rfl
  · rfl
  · rw [execWith_code hi, State.advance_code]

/-- A failure is ST = Failed together with its reason (R28, R104). -/
theorem stepWith_failed_iff (h : stepWith p s = .next s') : s'.status = .failed ↔ s'.reason ≠ .none := by
  rcases stepWith_next h with ⟨_, rfl⟩ | ⟨_, r, hr, rfl⟩ | ⟨_, i, hi⟩
  · simp
  · simp only [State.setStatus_status, State.setStatus_reason, true_iff]
    rintro rfl
    simp at hr
  · exact execWith_failed_iff hi

/-! ## ST and FR are not read -/

/-- No instruction reads ST or FR: each ends in `raise`, `complete` or `halt`, which write both, so the two sides compute to the
same outcome. -/
theorem execWith_setStatus (p : Params) (i : Instr) (s : State) (ru : RunStatus) (r : Reason) :
    execWith p i (s.setStatus ru r) = execWith p i s := by
  cases i <;> rfl

/-- The step does not test ST (R100), nor FR: what is decoded depends on the code and `ip` alone. -/
theorem stepWith_setStatus (p : Params) (s : State) (ru : RunStatus) (r : Reason) :
    stepWith p (s.setStatus ru r) = stepWith p s := by
  have hcode : remainingCode (s.setStatus ru r) = remainingCode s := rfl
  simp only [stepWith, fetchWith, hcode]
  cases decodeWith p.opcodeMap (remainingCode s) with
  | instr i rest => exact execWith_setStatus p i (s.advance 1) ru r
  | illegal _ | truncated | endOfCode => rfl

/-- Settles O9: the step past the end, the step inside the code, and the step's blindness to ST and FR. -/
theorem rangeCheckIsTheOnlyPrecondition : Obligations.RangeCheckIsTheOnlyPrecondition := by
  unfold Obligations.RangeCheckIsTheOnlyPrecondition
  simp only [step_eq_stepWith_default]
  exact ⟨fun _ => stepWith_pastEnd, fun _ _ => stepWith_inside, stepWith_setStatus Params.default⟩

/-! ## Every step answers a state -/

theorem withPop_answers {k : Word → State → StepOutcome} (hk : ∀ v t, ∃ s', k v t = .next s') (s : State) :
    ∃ s', withPop s k = .next s' := by
  rcases withPop_cases s k with ⟨_, h⟩ | ⟨rest, v, _, h⟩ <;> rw [h]
  · exact ⟨_, rfl⟩
  · exact hk v _

theorem withPop2_answers {k : Word → Word → State → StepOutcome} (hk : ∀ a b t, ∃ s', k a b t = .next s') (s : State) :
    ∃ s', withPop2 s k = .next s' :=
  withPop_answers (fun b => withPop_answers fun a => hk a b) s

section Answers

variable (hcap : p.stackCap = none)
include hcap

theorem withPush_complete_answers (v : Word) (s : State) : ∃ s', withPush p v s complete = .next s' :=
  ⟨_, withPush_unbounded hcap v s complete⟩

theorem binaryOp_answers (f : Word → Word → Word) (s : State) : ∃ s', binaryOp p f s = .next s' :=
  withPop2_answers (fun a b => withPush_complete_answers hcap (f a b)) s

theorem divideOp_answers (hovf : p.divOvfPolicy = .wrap) (z : Reason) (w : Word) (f : Word → Word → Word) (s : State) :
    ∃ s', divideOp p z w f s = .next s' := by
  refine withPop2_answers (fun a b t => ?_) s
  simp only [hovf]
  split
  · exact ⟨_, rfl⟩
  · split
    · exact withPush_complete_answers hcap w t
    · exact withPush_complete_answers hcap (f a b) t

/-- With no capacity and under the wrap policy every instruction answers a state, at any depth (R104, D3, D4). -/
theorem execWith_answers (hovf : p.divOvfPolicy = .wrap) (i : Instr) (s : State) : ∃ s', execWith p i s = .next s' := by
  cases i with
  | skip | halt => exact ⟨_, rfl⟩
  | pushI64 v =>
    rw [execWith, pushI64With]
    split
    · exact ⟨_, rfl⟩
    · exact withPush_complete_answers hcap v _
  | pop => exact withPop_answers (fun _ _ => ⟨_, rfl⟩) s
  | swap =>
    refine withPop2_answers (fun a b t => ?_) s
    rw [withPush_unbounded hcap]
    exact withPush_complete_answers hcap a _
  | add | sub | mul => exact binaryOp_answers hcap _ s
  | div | mod => exact divideOp_answers hcap hovf _ _ _ s

/-- With no capacity and under the wrap policy every step answers a state (R104). -/
theorem stepWith_answers (hovf : p.divOvfPolicy = .wrap) (s : State) : ∃ s', stepWith p s = .next s' := by
  rcases stepWith_cases p s with ⟨_, _, h⟩ | ⟨_, _, _, _, h⟩ | ⟨_, _, _, _, _, h⟩ | ⟨_, i, _, _, _, _, _, h⟩ <;> rw [h]
  · exact ⟨_, rfl⟩
  · exact ⟨_, rfl⟩
  · exact ⟨_, rfl⟩
  · exact execWith_answers hcap hovf i _

end Answers

/-- Every step of the default machine is safe. -/
theorem step_safe (s : State) : SafeStep s := by
  rw [SafeStep, step_eq_stepWith_default]
  exact stepWith_answers rfl rfl s

/-- Settles O11: the default machine's step answers a state, and in an answered state ST is Failed exactly when FR is not NONE. -/
theorem everyFailureIsAbsorbedByTheStep : Obligations.EveryFailureIsAbsorbedByTheStep := by
  unfold Obligations.EveryFailureIsAbsorbedByTheStep
  intro s
  obtain ⟨s', h⟩ := step_safe s
  exact ⟨s', h, stepWith_failed_iff (step_eq_stepWith_default s ▸ h)⟩

/-! ## The run loop -/

/-- `runBound` is the measure of the run: a step that leaves ST Continuing lowers it (R111). -/
theorem runBound_lt_of_continuing (h : stepWith p s = .next s') (hc : s'.status = .continuing) :
    runBound s' < runBound s := by
  have hlt : s.ip < s.code.length := by
    by_contra hge
    rw [stepWith_pastEnd (not_lt.mp hge), raise_eq_next] at h
    simp [h] at hc
  obtain ⟨_, hip⟩ := stepWith_inside hlt h
  rw [runBound, runBound, stepWith_code h]
  omega

/-- Fuel beyond `runBound` makes no difference to the loop (R111). -/
theorem runLoop_eq_of_runBound_le {n m : Nat} (hn : runBound s ≤ n) (hm : runBound s ≤ m) :
    runLoop (stepWith p) n s = runLoop (stepWith p) m s := by
  induction n generalizing s m with
  | zero => simp [runBound] at hn
  | succ n ih =>
    obtain ⟨m, rfl⟩ : ∃ k, m = k + 1 := ⟨m - 1, by simp only [runBound] at hm; omega⟩
    by_cases hs : s.status = .continuing
    · cases h : stepWith p s with
      | fault f => simp only [runLoop, hs, h]
      | refused r => simp only [runLoop, hs, h]
      | next s₁ =>
        rw [runLoop_continuing hs h, runLoop_continuing hs h]
        by_cases hs₁ : s₁.status = .continuing
        · have hlt := runBound_lt_of_continuing h hs₁
          exact ih (by omega) (by omega)
        · rw [runLoop_done hs₁, runLoop_done hs₁]
    · rw [runLoop_done hs, runLoop_done hs]

/-- RUN's entry takes the step of the state it meets, whatever ST was (R121). -/
theorem runWith_of_stepWith (h : stepWith p s = .next s') :
    runWith p s = runLoop (stepWith p) (s.code.length - s.ip) s' := by
  have hres : stepWith p s.resume = .next s' := (stepWith_setStatus p s _ _).trans h
  exact runLoop_continuing s.resume_status hres _

theorem State.resume_eq_self (hst : s.status = .continuing) (hr : s.reason = .none) : s.resume = s := by
  rw [State.resume, ← hst, ← hr]
  rfl

/-- A step to a Continuing state is the first step of the run. -/
theorem runWith_eq_runWith_of_continuing (h : stepWith p s = .next s') (hc : s'.status = .continuing) :
    runWith p s = runWith p s' := by
  have hr : s'.reason = .none := by
    by_contra hne
    simp [(stepWith_failed_iff h).mpr hne] at hc
  have hlt := runBound_lt_of_continuing h hc
  calc runWith p s
      = runLoop (stepWith p) (s.code.length - s.ip) s' := runWith_of_stepWith h
    _ = runLoop (stepWith p) (runBound s') s' :=
      runLoop_eq_of_runBound_le (Nat.le_of_lt_succ hlt) le_rfl
    _ = runWith p s' := by rw [runWith, runBy, State.resume_eq_self hc hr]

/-- A step that writes Halted or Failed is the last of the run. -/
theorem runWith_eq_of_terminal (h : stepWith p s = .next s') (ht : s'.status ≠ .continuing) :
    runWith p s = .next s' :=
  (runWith_of_stepWith h).trans (runLoop_done ht _)

theorem run_eq_runWith_default (s : State) : run s = runWith Params.default s := by
  rw [run, runWith, funext step_eq_stepWith_default]

/-- Settles O44: a run goes on after a step to Continuing, ends after any other, and the loop takes no step from a terminal
state. -/
theorem runRepeatsStepsWhileContinuing : Obligations.RunRepeatsStepsWhileContinuing := by
  unfold Obligations.RunRepeatsStepsWhileContinuing
  simp only [step_eq_stepWith_default, run_eq_runWith_default]
  exact ⟨fun _ _ => runWith_eq_runWith_of_continuing, fun _ _ => runWith_eq_of_terminal, fun _ fuel h => runLoop_done h fuel⟩

end Sys2Proof.Machine
end

section
/-! Proof of PUSH_I64 (spec/41_stack.md R130): its meaning on either side of the eight-byte boundary, and the step on its opcode
byte, at any parameters. -/

namespace Sys2Proof.Machine

variable {p : Params} {s : State}

/-- With fewer than eight bytes left the meaning ends in the raise, before anything is read or pushed. -/
theorem pushI64With_truncated (h : s.code.length < s.ip + 8) (v : Word) :
    pushI64With p v s = raise .truncatedImmediate s :=
  if_pos (by omega)

/-- With eight bytes left an unbounded stack takes the immediate, and `ip` moves past it. -/
theorem pushI64With_unbounded (hcap : p.stackCap = none) (h : s.ip + 8 ≤ s.code.length) (v : Word) :
    pushI64With p v s = complete ((s.advance 8).setStack (s.stack ++ [v])) := by
  rw [pushI64With, if_neg (by omega), withPush_unbounded hcap, State.advance_stack]

/-- A decoded instruction runs in the state whose `ip` is past the opcode byte (R101, R102). -/
theorem stepWith_of_decodeWith_instr {i : Instr} {rest : List Byte}
    (h : decodeWith p.opcodeMap (remainingCode s) = .instr i rest) : stepWith p s = execWith p i (s.advance 1) := by
  simp [stepWith, fetchWith, h]

/-- A truncated immediate ends the step one past the opcode byte (R101, R130). -/
theorem stepWith_of_decodeWith_truncated (h : decodeWith p.opcodeMap (remainingCode s) = .truncated) :
    stepWith p s = raise .truncatedImmediate (s.advance 1) := by
  simp [stepWith, fetchWith, h]

section OnCodeBytes

variable (hm : p.opcodeMap.injective = true)
include hm

/-- The step on PUSH_I64's byte and eight more pushes the word they assemble to. -/
theorem stepWith_pushI64 (hcap : p.stackCap = none) {b0 b1 b2 b3 b4 b5 b6 b7 : Byte} {rest : List Byte}
    (h : remainingCode s = p.opcodeMap.pushI64 :: b0 :: b1 :: b2 :: b3 :: b4 :: b5 :: b6 :: b7 :: rest) :
    stepWith p s = complete ((s.advance 9).setStack (s.stack ++ [le64 b0 b1 b2 b3 b4 b5 b6 b7])) := by
  have hd : decodeWith p.opcodeMap (remainingCode s) = .instr (.pushI64 (le64 b0 b1 b2 b3 b4 b5 b6 b7)) rest := by
    rw [h, decodeWith_pushI64 hm, decodeImmediate]
  have hlen : (s.advance 1).ip + 8 ≤ (s.advance 1).code.length := by
    have hl := congrArg List.length h
    simp only [remainingCode, List.length_drop, List.length_cons] at hl
    rw [State.advance_ip, State.advance_code]
    omega
  exact (stepWith_of_decodeWith_instr hd).trans (pushI64With_unbounded hcap hlen _)

/-- The step on PUSH_I64's byte with fewer than eight after it fails one past the byte. -/
theorem stepWith_pushI64_truncated (hb : codeByte s s.ip = some p.opcodeMap.pushI64)
    (hlt : s.code.length - (s.ip + 1) < 8) : stepWith p s = raise .truncatedImmediate (s.advance 1) := by
  apply stepWith_of_decodeWith_truncated
  rw [remainingCode_eq_cons hb, decodeWith_eq_truncated_iff, List.length_drop]
  exact ⟨decodeOpcode_byteOf hm .pushI64, hlt⟩

end OnCodeBytes

theorem Params.default_opcodeMap_injective : Params.default.opcodeMap.injective = true := by decide

/-- Settles O26: the meaning on either side of the boundary and the step on the code bytes, at the default parameters. -/
theorem pushI64PushesItsImmediate : Obligations.PushI64PushesItsImmediate := by
  unfold Obligations.PushI64PushesItsImmediate
  simp only [step_eq_stepWith_default]
  refine ⟨fun v => ⟨rfl, rfl⟩, fun v s hle => ?_, fun v s hlt => ?_, fun b0 b1 b2 b3 b4 b5 b6 b7 rest s h => ?_,
    fun s hb hlt => ?_⟩
  · exact pushI64With_unbounded rfl hle v
  · exact pushI64With_truncated hlt v
  · exact stepWith_pushI64 Params.default_opcodeMap_injective rfl h
  · exact stepWith_pushI64_truncated Params.default_opcodeMap_injective hb hlt

end Sys2Proof.Machine
end

section
/-! Proofs of the five arithmetic instructions (spec/42_arithmetic.md sections 1 and 2): what an answered one can be, and the
whole next state of each at the default parameters, on a top two and below depth two. -/

namespace Sys2Proof.Machine

variable {s s' : State} {rest : List Word} {a b : Word}

/-! ## What an answered arithmetic instruction can be (R151) -/

/-- An arithmetic instruction underflows, or it takes the top two away and then pushes one result or fails. -/
theorem exec_arithmetic_next {i : Instr} (hi : i ∈ [Instr.add, .sub, .mul, .div, .mod]) (h : exec i s = .next s') :
    (s.stack.length < 2 ∧ s' = (s.setStack []).setStatus .failed .stackUnderflow) ∨
      ∃ rest a b, s.stack = rest ++ [a, b] ∧
        ((∃ r, s' = (s.setStack (rest ++ [r])).setStatus .continuing .none) ∨
          ∃ z, s' = (s.setStack rest).setStatus .failed z) := by
  cases i with
  | add | sub | mul =>
    rcases binaryOp_next h with hu | ⟨rest, a, b, hs, hs'⟩
    · exact .inl hu
    · exact .inr ⟨rest, a, b, hs, .inl ⟨_, hs'⟩⟩
  | div | mod =>
    rcases divideOp_next h with hu | ⟨rest, a, b, hs, _, hs'⟩ | ⟨rest, a, b, hs, _, _, hs'⟩ | ⟨rest, a, b, hs, _, _, hs'⟩
    · exact .inl hu
    · exact .inr ⟨rest, a, b, hs, .inr ⟨_, hs'⟩⟩
    · exact .inr ⟨rest, a, b, hs, .inl ⟨_, hs'⟩⟩
    · exact .inr ⟨rest, a, b, hs, .inl ⟨_, hs'⟩⟩
  | skip | pushI64 _ | halt | pop | swap => simp at hi

/-- Settles O34: the two pops on a top two, and the clauses on an answered state read off its three possible shapes. -/
theorem arithmeticPopsTwoPushesOne : Obligations.ArithmeticPopsTwoPushesOne := by
  unfold Obligations.ArithmeticPopsTwoPushesOne
  refine ⟨fun s rest a b k hs => withPop2_append hs k, fun i hi s s' h => ?_⟩
  rcases exec_arithmetic_next hi h with ⟨hlt, rfl⟩ | ⟨rest, a, b, hs, ⟨r, rfl⟩ | ⟨z, rfl⟩⟩
  · simp [hlt]
  · simp [hs]
  · simp [hs]

/-! ## ADD, SUB and MUL (R152 to R154) -/

/-- On a top two the default machine pushes the result in their place, whatever it is. -/
theorem binaryOp_default (hs : s.stack = rest ++ [a, b]) (f : Word → Word → Word) :
    binaryOp Params.default f s = complete (s.setStack (rest ++ [f a b])) := by
  simp [binaryOp_append hs]

/-- Settles O29: the sum in place of the top two, the underflow, and the sum's symmetry and corner cases. -/
theorem addPushesWrappedSum : Obligations.AddPushesWrappedSum := by
  unfold Obligations.AddPushesWrappedSum
  refine ⟨rfl, fun s rest a b hs => ?_, fun s hlt => ?_, fun a b => ?_, by decide, by decide, by decide⟩
  · exact binaryOp_default hs aluAdd
  · exact binaryOp_underflow hlt Params.default aluAdd
  · rw [Int.add_comm]

/-- Settles O30: the difference in place of the top two, and the underflow. -/
theorem subPushesWrappedDifference : Obligations.SubPushesWrappedDifference := by
  unfold Obligations.SubPushesWrappedDifference
  refine ⟨fun m => rfl, fun s rest a b hs => ?_, fun s hlt => ?_⟩
  · exact binaryOp_default hs aluSub
  · exact binaryOp_underflow hlt Params.default aluSub

/-- Settles O31: the product in place of the top two, and the underflow. -/
theorem mulPushesWrappedProduct : Obligations.MulPushesWrappedProduct := by
  unfold Obligations.MulPushesWrappedProduct
  refine ⟨fun m => rfl, fun s rest a b hs => ?_, fun s hlt => ?_⟩
  · exact binaryOp_default hs aluMul
  · exact binaryOp_underflow hlt Params.default aluMul

/-! ## DIV and MOD (R155, R156) -/

theorem divOverflows_iff : divOverflows a b = true ↔ s64 a = minValue ∧ s64 b = -1 := by
  simp [divOverflows]

/-- On a top two with a divisor that is neither zero nor part of the overflow pair, the result goes in their place. -/
theorem divideOp_default (hs : s.stack = rest ++ [a, b]) (hb : s64 b ≠ 0) (ho : ¬(s64 a = minValue ∧ s64 b = -1))
    (z : Reason) (w : Word) (f : Word → Word → Word) :
    divideOp Params.default z w f s = complete (s.setStack (rest ++ [f a b])) := by
  rw [← divOverflows_iff, Bool.not_eq_true] at ho
  simp [divideOp_append hs hb ho]

/-- On the overflow pair the default policy pushes the wrapped value (D3). -/
theorem divideOp_default_overflow (hs : s.stack = rest ++ [a, b]) (ha : s64 a = minValue) (hb : s64 b = -1)
    (z : Reason) (w : Word) (f : Word → Word → Word) :
    divideOp Params.default z w f s = complete (s.setStack (rest ++ [w])) := by
  simp [divideOp_overflow hs (divOverflows_iff.mpr ⟨ha, hb⟩)]

/-- Settles O32: the quotient, the overflow pair, the zero divisor and the underflow. -/
theorem divPushesTruncatedQuotient : Obligations.DivPushesTruncatedQuotient := by
  unfold Obligations.DivPushesTruncatedQuotient
  refine ⟨rfl, fun s rest a b hs hb ho => ?_, fun s rest a b hs ha hb => ?_, fun s rest a b hs hb => ?_, fun s hlt => ?_⟩
  · exact divideOp_default hs hb ho .divByZero (w64 minValue) aluDiv
  · exact divideOp_default_overflow hs ha hb .divByZero (w64 minValue) aluDiv
  · exact divideOp_zero hs hb Params.default .divByZero (w64 minValue) aluDiv
  · exact divideOp_underflow hlt Params.default .divByZero (w64 minValue) aluDiv

/-- Settles O33: the remainder, the overflow pair, the zero divisor and the underflow. -/
theorem modPushesTruncatedRemainder : Obligations.ModPushesTruncatedRemainder := by
  unfold Obligations.ModPushesTruncatedRemainder
  refine ⟨fun m => rfl, fun s rest a b hs hb ho => ?_, fun s rest a b hs ha hb => ?_, fun s rest a b hs hb => ?_,
    fun s hlt => ?_⟩
  · exact divideOp_default hs hb ho .modByZero (w64 0) aluMod
  · exact divideOp_default_overflow hs ha hb .modByZero (w64 0) aluMod
  · exact divideOp_zero hs hb Params.default .modByZero (w64 0) aluMod
  · exact divideOp_underflow hlt Params.default .modByZero (w64 0) aluMod

end Sys2Proof.Machine
end

section
/-! Proof of HALT (spec/43_control.md R182): the decoder and the step on the byte of a one-byte instruction, under any injective
map, and RUN's blindness to the ST and FR that it meets. -/

namespace Sys2Proof

/-- The byte of a one-byte instruction decodes to it, whatever follows (R70, R73). -/
theorem decodeWith_byteOf {m : OpcodeMap} (hm : m.injective = true) {i : Instr} (hi : i.opcode ≠ .pushI64) (rest : List Byte) :
    decodeWith m (m.byteOf i.opcode :: rest) = .instr i rest := by
  cases i with
  | pushI64 v => exact absurd rfl hi
  | skip | add | halt | sub | mul | div | mod | pop | swap => simp only [decodeWith, Instr.opcode, decodeOpcode_byteOf hm]

namespace Machine

variable {p : Params} {s : State}

/-- The step on the byte of a one-byte instruction runs it with `ip` one past the byte (R101, R102). -/
theorem stepWith_byteOf (hm : p.opcodeMap.injective = true) {i : Instr} (hi : i.opcode ≠ .pushI64)
    (hb : codeByte s s.ip = some (p.opcodeMap.byteOf i.opcode)) : stepWith p s = execWith p i (s.advance 1) := by
  apply stepWith_of_decodeWith_instr
  rw [remainingCode_eq_cons hb]
  exact decodeWith_byteOf hm hi _

/-- The step on HALT's byte ends Halted one past it, and leaves the rest. -/
theorem stepWith_halt (hm : p.opcodeMap.injective = true) (hb : codeByte s s.ip = some p.opcodeMap.halt) :
    stepWith p s = .next ((s.advance 1).setStatus .halted .none) :=
  stepWith_byteOf (i := .halt) hm (by decide) hb

/-- RUN overwrites ST and FR on entry, and its bound does not read them (R113, R121). -/
theorem runWith_setStatus (p : Params) (s : State) (ru : RunStatus) (r : Reason) :
    runWith p (s.setStatus ru r) = runWith p s := rfl

/-- Settles O25: the step on HALT's byte ends Halted, which ends the run, and neither STEP nor RUN reads the ST and FR that HALT
wrote. -/
theorem haltEndsTheRun : Obligations.HaltEndsTheRun := by
  unfold Obligations.HaltEndsTheRun
  simp only [step_eq_stepWith_default, run_eq_runWith_default]
  refine ⟨rfl, fun s => rfl, fun s hb => ?_⟩
  have hstep := stepWith_halt Params.default_opcodeMap_injective hb
  exact ⟨hstep, runWith_eq_of_terminal hstep (by simp),
    stepWith_setStatus Params.default (s.advance 1) .halted .none,
    runWith_setStatus Params.default (s.advance 1) .halted .none⟩

end Machine

end Sys2Proof
end

section
/-! Proof that a failed LOAD changes nothing (spec/60_exceptions.md R211). -/

namespace Sys2Proof.Machine

/-- Settles O46: of the two things a LOAD that answers can do, only the one that keeps the state answers an error. -/
theorem failedLoadChangesNothing : Obligations.FailedLoadChangesNothing := by
  unfold Obligations.FailedLoadChangesNothing
  intro p src s s' r hload herr
  obtain ⟨-, ⟨-, hkept⟩ | ⟨hok, -⟩⟩ := loadWith_next hload
  · exact hkept
  · exact absurd hok herr

end Sys2Proof.Machine
end

section
/-! Proofs of the two round trips of the encoding (spec/30_encoding.md sections 1 to 3), of the read-back of a whole program (R76),
and of what the opcode map decides: which maps R74 admits, the illegal bytes of the default one, and the four source opcodes. -/

namespace Sys2Proof

/-! ## Encoding and decoding are inverse -/

theorem decodeImmediate_le64Bytes (v : Word) (rest : List Byte) :
    decodeImmediate (le64Bytes v ++ rest) = .instr (.pushI64 v) rest := by
  simp only [le64Bytes, List.cons_append, List.nil_append, decodeImmediate, le64_wordByte]

/-- Decoding an encoded instruction gives it back and leaves what follows, under any injective map (R71, R73, R75). -/
theorem decodeWith_encodeWith {m : OpcodeMap} (hm : m.injective = true) (i : Instr) (rest : List Byte) :
    decodeWith m (encodeWith m i ++ rest) = .instr i rest := by
  by_cases hi : i.opcode = .pushI64
  · cases i with
    | pushI64 v => exact (decodeWith_pushI64 hm _).trans (decodeImmediate_le64Bytes v rest)
    | skip | add | halt | sub | mul | div | mod | pop | swap => cases hi
  · rw [encodeWith, Instr.operandBytes_eq_nil hi]
    exact decodeWith_byteOf hm hi rest

/-- Settles O3: the byte of a one-byte instruction decodes to it, and PUSH_I64's eight bytes assemble to the word that they were
taken from. -/
theorem decodeInvertsEncode : Obligations.DecodeInvertsEncode := by
  unfold Obligations.DecodeInvertsEncode
  exact fun _ hm i _ rest => decodeWith_encodeWith hm i rest

/-- Settles O4: a decoded instruction's operand bytes come right after its opcode byte, which is the map's byte of its
operation. -/
theorem encodeInvertsDecode : Obligations.EncodeInvertsDecode := by
  unfold Obligations.EncodeInvertsDecode
  intro m bytes i rest h
  cases bytes with
  | nil => cases h
  | cons b tail =>
    rcases decodeWith_cons_answers m b tail with ⟨_, hd⟩ | ⟨_, _, hd⟩ | ⟨j, rest', ho, htail, hd⟩ <;> rw [hd] at h <;> cases h
    rw [encodeWith, byteOf_of_decodeOpcode ho, htail, List.cons_append]

theorem encodeProgramWith_append (m : OpcodeMap) (is js : List Instr) :
    encodeProgramWith m (is ++ js) = encodeProgramWith m is ++ encodeProgramWith m js :=
  List.flatMap_append

theorem encodeProgramWith_cons (m : OpcodeMap) (i : Instr) (is : List Instr) :
    encodeProgramWith m (i :: is) = encodeWith m i ++ encodeProgramWith m is :=
  List.flatMap_cons

/-- Settles O5: the encodings before an instruction are exactly what is dropped, so its own encoding is read next. -/
theorem programCodeReadsBack : Obligations.ProgramCodeReadsBack := by
  unfold Obligations.ProgramCodeReadsBack
  intro m hm before after i
  rw [encodeProgramWith_append, List.drop_left, encodeProgramWith_cons]
  exact decodeWith_encodeWith hm i _

/-! ## Which maps are admissible (R74) -/

/-- Condition 1 of R74 as a property of the map's function. -/
theorem OpcodeMap.injective_iff {m : OpcodeMap} : m.injective = true ↔ ∀ o o', m.byteOf o = m.byteOf o' → o = o' := by
  refine ⟨fun h _ _ => byteOf_injective h, fun h => ?_⟩
  have hall : Opcode.all.Nodup := by decide
  exact decide_eq_true (hall.map fun o o' => h o o')

theorem OpcodeMap.sourceValues_iff {m : OpcodeMap} :
    m.sourceValues = true ↔
      m.byteOf .pushI64 = 0x01 ∧ m.byteOf .add = 0x02 ∧ m.byteOf .halt = 0x03 ∧ m.byteOf .div = 0x06 := by
  simp [sourceValues, byteOf, and_assoc]

/-- Condition 3 of R74 follows from the two others: the six other operations share no byte with each other, nor with the four
that have the source's values. -/
theorem OpcodeMap.restApart_of_injective {m : OpcodeMap} (hinj : m.injective = true) (hsrc : m.sourceValues = true) :
    m.restApart = true := by
  obtain ⟨hpush, hadd, hhalt, hdiv⟩ := sourceValues_iff.mp hsrc
  have hbytes : ([0x01, 0x02, 0x03, 0x06] : List Byte) = [Opcode.pushI64, .add, .halt, .div].map m.byteOf := by
    simp [hpush, hadd, hhalt, hdiv]
  have hrest : [m.skip, m.sub, m.mul, m.mod, m.pop, m.swap] =
      [Opcode.skip, .sub, .mul, .mod, .pop, .swap].map m.byteOf := rfl
  have hf : Function.Injective m.byteOf := fun o o' => byteOf_injective hinj
  simp only [restApart, hrest, hbytes, List.nodup_map_iff hf, List.all_map, List.all_eq_true, Function.comp, Bool.and_eq_true,
    decide_eq_true_iff, Bool.not_eq_true', ← Bool.not_eq_true, List.contains_iff_mem, List.mem_map_of_injective hf]
  decide

/-- Settles O56: the first two conditions are those of the statement, and they imply the third. -/
theorem opcodeMapConditions : Obligations.OpcodeMapConditions := by
  unfold Obligations.OpcodeMapConditions
  intro m
  rw [← OpcodeMap.injective_iff, ← OpcodeMap.sourceValues_iff, OpcodeMap.wf]
  constructor
  · intro h
    simp only [Bool.and_eq_true] at h
    exact h.1
  · rintro ⟨hinj, hsrc⟩
    simp [hinj, hsrc, OpcodeMap.restApart_of_injective hinj hsrc]

/-! ## The default map (R72) -/

/-- Settles O1: each list is an encoding with bytes after it. -/
theorem opcodeBytesDecode : Obligations.OpcodeBytesDecode := by
  unfold Obligations.OpcodeBytesDecode
  intro rest
  have hd (i : Instr) : decode (encode i ++ rest) = .instr i rest := decodeWith_encodeWith (by decide) i rest
  have hneg : encode (.pushI64 (BitVec.ofInt 64 (-7))) = [0x01, 0xF9, 0xFF, 0xFF, 0xFF, 0xFF, 0xFF, 0xFF, 0xFF] := by decide
  have hcount : encode (.pushI64 0x0102030405060708) = [0x01, 0x08, 0x07, 0x06, 0x05, 0x04, 0x03, 0x02, 0x01] := by decide
  refine ⟨hd .skip, ?_, ?_, hd .add, hd .halt, hd .sub, hd .mul, hd .div, hd .mod, hd .pop, hd .swap⟩
  · have h := hd (.pushI64 (BitVec.ofInt 64 (-7)))
    rwa [hneg] at h
  · have h := hd (.pushI64 0x0102030405060708)
    rwa [hcount] at h

theorem byteOf_default_toNat_lt (o : Opcode) : (OpcodeMap.default.byteOf o).toNat < 10 := by
  cases o <;> decide

theorem exists_byteOf_default {b : Byte} (h : b.toNat < 10) : ∃ o, OpcodeMap.default.byteOf o = b := by
  have hall : ∀ k : Fin 10, ∃ o ∈ Opcode.all, OpcodeMap.default.byteOf o = BitVec.ofNat 8 k := by decide
  obtain ⟨o, _, ho⟩ := hall ⟨b.toNat, h⟩
  exact ⟨o, by simpa using ho⟩

/-- The default map uses exactly the bytes below 10. -/
theorem decodeOpcode_default_eq_none_iff {b : Byte} : decodeOpcode OpcodeMap.default b = none ↔ 10 ≤ b.toNat := by
  rw [decodeOpcode_eq_none_iff]
  constructor
  · intro h
    by_contra hlt
    obtain ⟨o, ho⟩ := exists_byteOf_default (not_le.mp hlt)
    exact h o ho
  · rintro hle o rfl
    exact absurd (byteOf_default_toNat_lt o) (not_lt.mpr hle)

theorem decodeWith_eq_illegal_iff {m : OpcodeMap} {b : Byte} {rest : List Byte} :
    decodeWith m (b :: rest) = .illegal b ↔ decodeOpcode m b = none := by
  rcases decodeWith_cons_answers m b rest with ⟨ho, hd⟩ | ⟨ho, _, hd⟩ | ⟨_, _, ho, _, hd⟩ <;> simp [ho, hd]

/-- Settles O6: a byte is illegal exactly when the opcode decoder has no operation for it. -/
theorem illegalBytesOfDefaultMap : Obligations.IllegalBytesOfDefaultMap := by
  unfold Obligations.IllegalBytesOfDefaultMap
  exact fun b rest => decodeWith_eq_illegal_iff.trans decodeOpcode_default_eq_none_iff

/-! ## The four source opcodes -/

/-- What a non-empty list decodes to depends on the map only through its first byte's operation. -/
theorem decodeWith_eq_of_decodeOpcode {m m' : OpcodeMap} {b : Byte} (h : decodeOpcode m b = decodeOpcode m' b)
    (rest : List Byte) : decodeWith m (b :: rest) = decodeWith m' (b :: rest) := by
  simp only [decodeWith, h]

/-- The four source bytes mean the same under every admissible map. -/
theorem decodeOpcode_source {m m' : OpcodeMap} (hm : m.wf = true) (hm' : m'.wf = true) {b : Byte}
    (hb : b ∈ ([0x01, 0x02, 0x03, 0x06] : List Byte)) : decodeOpcode m b = decodeOpcode m' b := by
  obtain ⟨_, hpush, hadd, hhalt, hdiv⟩ := (opcodeMapConditions m).mp hm
  obtain ⟨_, hpush', hadd', hhalt', hdiv'⟩ := (opcodeMapConditions m').mp hm'
  have hshared : ∃ o, m.byteOf o = b ∧ m'.byteOf o = b := by
    simp only [List.mem_cons, List.not_mem_nil, or_false] at hb
    rcases hb with rfl | rfl | rfl | rfl
    · exact ⟨.pushI64, hpush, hpush'⟩
    · exact ⟨.add, hadd, hadd'⟩
    · exact ⟨.halt, hhalt, hhalt'⟩
    · exact ⟨.div, hdiv, hdiv'⟩
  obtain ⟨o, ho, ho'⟩ := hshared
  rw [(decodeOpcode_eq_some_iff (OpcodeMap.wf_injective hm)).mpr ho,
    (decodeOpcode_eq_some_iff (OpcodeMap.wf_injective hm')).mpr ho']

namespace Machine

/-- No instruction's meaning reads the opcode map. -/
theorem execWith_opcodeMap (p : Params) (m : OpcodeMap) (i : Instr) (s : State) :
    execWith { p with opcodeMap := m } i s = execWith p i s := by
  cases i <;> rfl

/-- Settles O55: the two maps decode a source byte alike, and no instruction reads the map. -/
theorem sourceOpcodesDoNotDependOnTheMap : Obligations.SourceOpcodesDoNotDependOnTheMap := by
  unfold Obligations.SourceOpcodesDoNotDependOnTheMap
  rintro p m s hp hm ⟨b, hmem, hb⟩
  have hdec : decodeWith m (remainingCode s) = decodeWith p.opcodeMap (remainingCode s) := by
    rw [remainingCode_eq_cons hb]
    exact decodeWith_eq_of_decodeOpcode (decodeOpcode_source hm hp hmem) _
  simp only [stepWith, fetchWith, hdec]
  cases decodeWith p.opcodeMap (remainingCode s) with
  | instr i rest => exact execWith_opcodeMap p m i _
  | illegal _ | truncated | endOfCode => rfl

end Machine

end Sys2Proof
end

section
/-! Proofs of the state's invariant (spec/10_state.md sections 3, 5 and 6): every step keeps it at any parameters, so every run and
every host command does, so every state that host commands reach meets it. -/

namespace Sys2Proof.Machine

variable {p : Params} {s s' : State}

/-! ## The frame of a step -/

theorem execWith_globals {i : Instr} (h : execWith p i s = .next s') : s'.globals = s.globals := by
  obtain ⟨_, _, _, _, _, _, _, _, hglobals, _⟩ := execWith_next h
  exact hglobals

theorem stepWith_globals (h : stepWith p s = .next s') : s'.globals = s.globals := by
  rcases stepWith_next h with ⟨_, rfl⟩ | ⟨_, _, _, rfl⟩ | ⟨_, i, hi⟩
  · rfl
  · rfl
  · rw [execWith_globals hi, State.advance_globals]

theorem codeByte_congr (h : s'.code = s.code) (a : Nat) : codeByte s' a = codeByte s a := by
  rw [codeByte, codeByte, h]

/-- Settles O12: neither an instruction nor a step changes the code or the globals, and a byte is read from the code alone. -/
theorem codeAndGlobalsAreNeverWritten : Obligations.CodeAndGlobalsAreNeverWritten := by
  unfold Obligations.CodeAndGlobalsAreNeverWritten
  refine ⟨fun i s s' h => ?_, fun p s s' h => ?_⟩
  · rw [exec_eq_execWith_default] at h
    exact ⟨execWith_code h, codeByte_congr (execWith_code h), execWith_globals h⟩
  · exact ⟨stepWith_code h, codeByte_congr (stepWith_code h), stepWith_globals h⟩

/-! ## The step -/

/-- No instruction moves `ip` past the end of the code: PUSH_I64 moves it only over bytes that are there. -/
theorem execWith_ip_le_length {i : Instr} (hs : s.ip ≤ s.code.length) (h : execWith p i s = .next s') :
    s'.ip ≤ s'.code.length := by
  rw [execWith_code h]
  obtain ⟨_, _, _, _, _, _, _, _, _, hip | ⟨_, _, hip, hroom, _⟩, _⟩ := execWith_next h <;> omega

theorem stepWith_ip_le_length (hs : s.ip ≤ s.code.length) (h : stepWith p s = .next s') : s'.ip ≤ s'.code.length := by
  rcases stepWith_next h with ⟨_, rfl⟩ | ⟨hlt, _, _, rfl⟩ | ⟨hlt, i, hi⟩
  · exact hs
  · exact hlt
  · exact execWith_ip_le_length (s := s.advance 1) hlt hi

/-- Every step keeps the invariant, at any parameters. -/
theorem stepWith_keeps_inv (hs : s.Inv) (h : stepWith p s = .next s') : s'.Inv := by
  obtain ⟨hip, hglobals, _⟩ := hs
  have hreason : s'.reason = .none ↔ s'.status ≠ .failed := by rw [ne_eq, stepWith_failed_iff h, not_not]
  exact ⟨stepWith_ip_le_length hip h, (stepWith_globals h).trans hglobals, hreason⟩

/-- Settles O14: the default machine's step is one of the steps at any parameters. -/
theorem stepKeepsInvariant : Obligations.StepKeepsInvariant := by
  unfold Obligations.StepKeepsInvariant
  intro s s' hs h
  exact stepWith_keeps_inv hs (step_eq_stepWith_default s ▸ h)

/-! ## Runs and host commands -/

/-- What every step keeps, the loop keeps. -/
theorem runLoop_keeps {stp : State → StepOutcome} {P : State → Prop} (hstp : ∀ t t', P t → stp t = .next t' → P t') {fuel : Nat}
    (hs : P s) (h : runLoop stp fuel s = .next s') : P s' := by
  induction fuel generalizing s with
  | zero =>
    cases h
    exact hs
  | succ n ih =>
    by_cases hst : s.status = .continuing
    · cases hstep : stp s with
      | next t =>
        rw [runLoop_continuing hst hstep] at h
        exact ih (hstp s t hs hstep) h
      | fault f => simp [runLoop, hst, hstep] at h
      | refused r => simp [runLoop, hst, hstep] at h
    · rw [runLoop_done hst] at h
      cases h
      exact hs

theorem State.inv_resume (hs : s.Inv) : s.resume.Inv := by
  obtain ⟨hip, hglobals, _⟩ := hs
  exact ⟨hip, hglobals, by simp⟩

theorem inv_loadReset (b : List Byte) : (loadReset b).Inv := by
  simp [State.Inv, loadReset]

/-- A run keeps the invariant: its entry does, and so does each of its steps. -/
theorem runWith_keeps_inv (hs : s.Inv) (h : runWith p s = .next s') : s'.Inv :=
  runLoop_keeps (fun _ _ => stepWith_keeps_inv) (State.inv_resume hs) h

theorem silently_next {o : StepOutcome} {r : Reply} : silently o = .next (s', r) ↔ o = .next s' ∧ r = .nothing := by
  cases o <;> simp [silently, eq_comm]

theorem loadReply_next {o : Host.Outcome (State × LoadResult) Fault Refusal} {r : Reply} (h : loadReply o = .next (s', r)) :
    ∃ e, o = .next (s', e) := by
  rcases o with ⟨t, e⟩ | f | q <;> cases h
  exact ⟨e, rfl⟩

/-- Every host command keeps the invariant, at any parameters: LOAD leaves the state or resets it, and READ leaves it. -/
theorem commandWith_keeps_inv {c : Command} {r : Reply} (hs : s.Inv) (h : commandWith p c s = .next (s', r)) : s'.Inv := by
  cases c with
  | load src =>
    obtain ⟨e, hload⟩ := loadReply_next h
    obtain ⟨-, ⟨-, rfl⟩ | ⟨-, rfl⟩⟩ := loadWith_next hload
    · exact hs
    · exact inv_loadReset _
  | run => exact runWith_keeps_inv hs (silently_next.mp h).1
  | step => exact stepWith_keeps_inv hs (silently_next.mp h).1
  | read what =>
    cases what <;> cases h <;> exact hs

/-- The default command is the command at the default parameters. -/
theorem command_eq_commandWith_default (c : Command) (s : State) : command c s = commandWith Params.default c s := by
  cases c with
  | load src => rfl
  | run => rw [command, commandWith, run_eq_runWith_default]
  | step => rw [command, commandWith, step_eq_stepWith_default]
  | read what => cases what <;> rfl

/-- Settles O58: the lemma at any parameters, and the default command as one of them. -/
theorem commandKeepsInvariant : Obligations.CommandKeepsInvariant := by
  unfold Obligations.CommandKeepsInvariant
  refine ⟨fun p c s s' r => commandWith_keeps_inv, fun c s s' r hs h => ?_⟩
  rw [command_eq_commandWith_default] at h
  exact commandWith_keeps_inv hs h

/-! ## Reachable states -/

/-- Settles O15: the state after construction is the load reset around no code. -/
theorem resetMeetsInvariant : Obligations.ResetMeetsInvariant := by
  unfold Obligations.ResetMeetsInvariant
  exact inv_loadReset []

/-- Settles O17: the reset state and the core's are written with these values. -/
theorem constructionState : Obligations.ConstructionState := by
  unfold Obligations.ConstructionState
  exact ⟨rfl, rfl⟩

/-- Settles O16: the invariant holds after construction, and every command keeps it. -/
theorem reachableStatesMeetInvariant : Obligations.ReachableStatesMeetInvariant := by
  unfold Obligations.ReachableStatesMeetInvariant
  intro s hs
  induction hs with
  | construction => exact resetMeetsInvariant
  | command c _ hcmd ih => exact commandKeepsInvariant.2 c _ _ _ ih hcmd

end Sys2Proof.Machine
end

section
/-! Proof that the assembler reads every printed program (spec/30_encoding.md R80, decision D15): cutting a text whose separators
are known, the hexadecimal digits of an immediate, and the words of a printed statement. -/

namespace Sys2Proof.Machine

/-! ## Cutting a text -/

section Cut

variable {sep : Char → Bool} {l : List Char}

/-- A text without separators is one piece. -/
theorem cutAt_eq_singleton (hl : ∀ c ∈ l, sep c = false) : cutAt sep l = [l] := by
  induction l with
  | nil => rfl
  | cons c cs ih =>
    obtain ⟨hc, hcs⟩ := List.forall_mem_cons.mp hl
    simp [cutAt, hc, ih hcs]

/-- The first separator ends the first piece. -/
theorem cutAt_append_cons (hl : ∀ c ∈ l, sep c = false) {d : Char} (hd : sep d = true) (rest : List Char) :
    cutAt sep (l ++ d :: rest) = l :: cutAt sep rest := by
  induction l with
  | nil => simp [cutAt, hd]
  | cons c cs ih =>
    obtain ⟨hc, hcs⟩ := List.forall_mem_cons.mp hl
    simp [cutAt, hc, ih hcs]

end Cut

/-! ## Hexadecimal digits -/

theorem length_hexDigits (k n : Nat) : (hexDigits k n).length = k := by
  induction k generalizing n with
  | zero => rfl
  | succ k ih => simp [hexDigits, ih]

/-- A property of the sixteen digit characters holds of every printed digit. -/
theorem forall_mem_hexDigits {P : Char → Prop} (hP : ∀ d < 16, P (hexChar d)) (k n : Nat) : ∀ c ∈ hexDigits k n, P c := by
  induction k generalizing n with
  | zero => simp [hexDigits]
  | succ k ih =>
    intro c hc
    rcases List.mem_append.mp hc with hc | hc
    · exact ih _ c hc
    · rw [List.mem_singleton.mp hc]
      exact hP _ (Nat.mod_lt _ (by decide))

theorem hexDigit?_hexChar : ∀ d < 16, hexDigit? (hexChar d) = some d := by decide

theorem digitsFrom_append (digit? : Char → Option Nat) (base acc : Nat) (cs ds : List Char) :
    digitsFrom digit? base acc (cs ++ ds) = (digitsFrom digit? base acc cs).bind fun a => digitsFrom digit? base a ds := by
  induction cs generalizing acc with
  | nil => rfl
  | cons c cs ih =>
    cases hc : digit? c <;> simp [digitsFrom, hc, ih]

/-- Reading `k` printed digits onto an accumulator shifts it by `k` places and adds the number's lowest `k` digits. -/
theorem digitsFrom_hexDigits (k acc n : Nat) :
    digitsFrom hexDigit? 16 acc (hexDigits k n) = some (acc * 16 ^ k + n % 16 ^ k) := by
  induction k generalizing n with
  | zero => simp [hexDigits, digitsFrom, Nat.mod_one]
  | succ k ih =>
    have hlast := hexDigit?_hexChar (n % 16) (Nat.mod_lt n (by decide))
    have hmod : n % 16 ^ (k + 1) = n % 16 + 16 * (n / 16 % 16 ^ k) := by rw [Nat.pow_succ', Nat.mod_mul]
    simp only [hexDigits, digitsFrom_append, ih, Option.bind_some, digitsFrom, hlast, hmod, Option.some.injEq]
    ring

/-- Sixteen digits are the whole bit pattern of a word. -/
theorem operand?_hexDigits (v : Word) : operand? ('0' :: 'x' :: hexDigits 16 v.toNat) = some v := by
  have hlt : v.toNat < 16 ^ 16 := v.isLt
  simp only [operand?, length_hexDigits, digitsFrom_hexDigits, Nat.mod_eq_of_lt hlt, Nat.zero_mul, Nat.zero_add]
  simp

/-! ## The words of a printed statement -/

/-- The operand words that the printer writes after an instruction's mnemonic. -/
def operandWords : Instr → List (List Char)
  | .pushI64 v => ['0' :: 'x' :: hexDigits 16 v.toNat]
  | .skip | .add | .halt | .sub | .mul | .div | .mod | .pop | .swap => []

/-- The characters of words: no blank, no separator of statements and no comment sign. -/
def isWordChar (c : Char) : Bool :=
  !isBlank c && c != '\n' && c != ';' && c != '#'

theorem isBlank_of_isWordChar {c : Char} (h : isWordChar c = true) : isBlank c = false := by
  simp only [isWordChar, Bool.and_eq_true, Bool.not_eq_true'] at h
  obtain ⟨⟨⟨hblank, -⟩, -⟩, -⟩ := h
  exact hblank

theorem isWordChar_mnemonicOf (o : Opcode) : ∀ c ∈ mnemonicOf o, isWordChar c = true := by
  cases o <;> simp [mnemonicOf, isWordChar, isBlank]

theorem isWordChar_operandWords (i : Instr) : ∀ w ∈ operandWords i, ∀ c ∈ w, isWordChar c = true := by
  cases i with
  | pushI64 v =>
    have hx : isWordChar '0' = true ∧ isWordChar 'x' = true := by decide
    simpa [operandWords, hx] using forall_mem_hexDigits (P := fun c => isWordChar c = true) (by decide) 16 v.toNat
  | skip | add | halt | sub | mul | div | mod | pop | swap => simp [operandWords]

/-- A printed statement is its words with a space before each operand. -/
theorem statementText_eq (i : Instr) : statementText i = mnemonicOf i.opcode ++ (operandWords i).flatMap (' ' :: ·) := by
  cases i with
  | pushI64 v => simp [statementText, operandWords]
  | skip | add | halt | sub | mul | div | mod | pop | swap => rfl

/-- A printed statement holds word characters and spaces only. -/
theorem mem_statementText {i : Instr} {c : Char} (hc : c ∈ statementText i) : isWordChar c = true ∨ c = ' ' := by
  simp only [statementText_eq, List.mem_append, List.mem_flatMap, List.mem_cons] at hc
  rcases hc with hc | ⟨w, hw, rfl | hc⟩
  · exact .inl (isWordChar_mnemonicOf _ c hc)
  · exact .inr rfl
  · exact .inl (isWordChar_operandWords i w hw c hc)

/-- A printed statement holds no separator of statements and no comment. -/
theorem statementText_separators (i : Instr) : ∀ c ∈ statementText i, c ≠ '\n' ∧ c ≠ ';' ∧ c ≠ '#' := by
  intro c hc
  rcases mem_statementText hc with h | rfl
  · simp only [isWordChar, Bool.and_eq_true, bne_iff_ne] at h
    exact ⟨h.1.1.2, h.1.2, h.2⟩
  · decide

/-- The blank after the mnemonic is the only one, so a printed statement is its mnemonic and its operand words. -/
theorem wordsOf_statementText (i : Instr) : wordsOf (statementText i) = mnemonicOf i.opcode :: operandWords i := by
  have hmnemonic : ∀ c ∈ mnemonicOf i.opcode, isBlank c = false := fun c hc =>
    isBlank_of_isWordChar (isWordChar_mnemonicOf _ c hc)
  have hnonempty : (mnemonicOf i.opcode).isEmpty = false := by cases i.opcode <;> rfl
  have hcut : cutAt isBlank (statementText i) = mnemonicOf i.opcode :: operandWords i := by
    have hoperands := isWordChar_operandWords i
    cases i with
    | pushI64 v =>
      rw [operandWords, ← cutAt_eq_singleton fun c hc => isBlank_of_isWordChar (hoperands _ (by simp [operandWords]) c hc)]
      exact cutAt_append_cons hmnemonic rfl _
    | skip | add | halt | sub | mul | div | mod | pop | swap => exact cutAt_eq_singleton hmnemonic
  cases i <;> simp [wordsOf, hcut, hnonempty, operandWords]

theorem mnemonic?_mnemonicOf (o : Opcode) : mnemonic? (mnemonicOf o) = some o := by
  cases o <;> decide

theorem instrOf?_operandWords (i : Instr) : instrOf? i.opcode (operandWords i) = some i := by
  cases i with
  | pushI64 v => simp [Instr.opcode, operandWords, instrOf?, operand?_hexDigits]
  | skip | add | halt | sub | mul | div | mod | pop | swap => rfl

/-- The words of a printed statement parse to its instruction. -/
theorem statement?_words (i : Instr) : statement? (mnemonicOf i.opcode :: operandWords i) = some i := by
  rw [statement?, mnemonic?_mnemonicOf, Option.bind_some, instrOf?_operandWords]

/-! ## The whole program -/

/-- The lines of a printed program: one for each instruction, and the empty one after the last newline. -/
theorem lines_printProgram (is : List Instr) : cutAt (· == '\n') (printProgram is) = is.map statementText ++ [[]] := by
  induction is with
  | nil => rfl
  | cons i is ih =>
    have hline : ∀ c ∈ statementText i, (c == '\n') = false := fun c hc => by simp [statementText_separators i c hc]
    have hprint : printProgram (i :: is) = statementText i ++ '\n' :: printProgram is := by simp [printProgram]
    rw [hprint, cutAt_append_cons hline rfl, ih]
    rfl

/-- A printed line is one statement. -/
theorem statements_of_line (i : Instr) :
    (cutAt (· == ';') (dropComment (statementText i))).map wordsOf = [mnemonicOf i.opcode :: operandWords i] := by
  have hcomment : dropComment (statementText i) = statementText i :=
    List.takeWhile_eq_self_iff.mpr fun c hc => by simp [statementText_separators i c hc]
  have hsemi : ∀ c ∈ statementText i, (c == ';') = false := fun c hc => by simp [statementText_separators i c hc]
  rw [hcomment, cutAt_eq_singleton hsemi, List.map_singleton, wordsOf_statementText]

theorem statementsOf_printProgram (is : List Instr) :
    statementsOf (printProgram is) = is.map fun i => mnemonicOf i.opcode :: operandWords i := by
  have hlast : (cutAt (· == ';') (dropComment [])).map wordsOf = [[]] := by decide
  have hlines : (is.map statementText).flatMap (fun line => (cutAt (· == ';') (dropComment line)).map wordsOf) =
      is.map fun i => mnemonicOf i.opcode :: operandWords i := by
    simp [List.flatMap_map, statements_of_line, ← List.map_eq_flatMap]
  simp [statementsOf, lines_printProgram, hlines, hlast, List.filter_map, Function.comp_def]

theorem statements?_words (is : List Instr) :
    statements? (is.map fun i => mnemonicOf i.opcode :: operandWords i) = some is := by
  induction is with
  | nil => rfl
  | cons i is ih => rw [List.map_cons, statements?, statement?_words, Option.bind_some, ih, Option.map_some]

/-- A printed program parses back. -/
theorem parseProgram_printProgram (is : List Instr) : parseProgram (printProgram is) = some is := by
  rw [parseProgram, statementsOf_printProgram, statements?_words]

/-- Settles O57: the printed text parses back, and the code and the file are computed from the parsed instructions. -/
theorem assemblerReadsEveryPrintedProgram : Obligations.AssemblerReadsEveryPrintedProgram := by
  unfold Obligations.AssemblerReadsEveryPrintedProgram
  intro is
  have hparse := parseProgram_printProgram is
  have hcode : assemble (printProgram is) = some (is.flatMap encode) := by
    rw [assemble, hparse]
    rfl
  exact ⟨hparse, hcode, by rw [assembleFile, hcode]; rfl⟩

end Sys2Proof.Machine
end

section
/-! Proofs of what a step does to `ip`, to the stack and to ST and FR: how far `ip` moves (spec/10_state.md R24), which steps halt
(spec/43_control.md R184), which deepen the stack (spec/41_stack.md R140), what a failing step keeps and which cause each reason has
(spec/60_exceptions.md section 1), and that nothing else is read (spec/40_engine.md R106). -/

namespace Sys2Proof.Machine

variable {p : Params} {s s' : State}

/-! ## How far `ip` moves -/

/-- Only PUSH_I64 moves `ip` past its opcode byte. -/
theorem execWith_ip_of_opcode_ne {i : Instr} (hi : i.opcode ≠ .pushI64) (h : execWith p i s = .next s') : s'.ip = s.ip := by
  obtain ⟨_, _, _, _, _, _, _, _, _, hip | ⟨v, rfl, _⟩, _⟩ := execWith_next h
  · exact hip
  · exact absurd rfl hi

/-- With its operand bytes there, PUSH_I64 completes and moves `ip` by eight more. -/
theorem pushI64With_ip {v : Word} (hroom : s.ip + 8 ≤ s.code.length) (h : pushI64With p v s = .next s') :
    s'.ip = s.ip + 8 ∧ s'.status = .continuing := by
  rcases pushI64With_next h with ⟨hlt, _⟩ | ⟨_, rfl⟩
  · omega
  · exact ⟨rfl, rfl⟩

/-- The operand bytes of a decoded instruction are within the code. -/
theorem operandBytes_le_of_remainingCode {b : Byte} {i : Instr} {rest : List Byte}
    (h : remainingCode s = b :: i.operandBytes ++ rest) : s.ip + 1 + i.operandBytes.length ≤ s.code.length := by
  have hl := congrArg List.length h
  simp only [remainingCode, List.length_drop, List.length_append, List.length_cons] at hl
  omega

/-- Settles O13: by what the bytes at `ip` decode to. -/
theorem stepMovesInstructionPointer : Obligations.StepMovesInstructionPointer := by
  unfold Obligations.StepMovesInstructionPointer
  intro s s' h
  rw [step_eq_stepWith_default] at h
  simp only [decode]
  rcases stepWith_cases Params.default s with ⟨hge, _, hs⟩ | ⟨b, hb, _, hd, hs⟩ | ⟨b, hb, _, _, hd, hs⟩ |
    ⟨b, i, rest, hb, _, hr, hd, hs⟩ <;> rw [hs] at h
  · obtain rfl := raise_eq_next.mp h
    exact .inl ⟨hge, rfl, rfl⟩
  · obtain rfl := raise_eq_next.mp h
    exact .inr (.inr ⟨ip_lt_of_codeByte hb, rfl, fun v rest hv => by cases hd.symm.trans hv⟩)
  · obtain rfl := raise_eq_next.mp h
    exact .inr (.inr ⟨ip_lt_of_codeByte hb, rfl, fun v rest hv => by cases hd.symm.trans hv⟩)
  · by_cases hi : i.opcode = .pushI64
    · have hroom := operandBytes_le_of_remainingCode hr
      rw [Instr.length_operandBytes_of_pushI64 hi] at hroom
      cases i with
      | pushI64 v =>
        obtain ⟨hip, hst⟩ := pushI64With_ip (s := s.advance 1) hroom h
        exact .inr (.inl ⟨ip_lt_of_codeByte hb, hip, hst, v, rest, hd⟩)
      | skip | add | halt | sub | mul | div | mod | pop | swap => cases hi
    · refine .inr (.inr ⟨ip_lt_of_codeByte hb, execWith_ip_of_opcode_ne hi h, fun v rest' hv => ?_⟩)
      cases hd.symm.trans hv
      exact hi rfl

/-! ## Halting -/

theorem execWith_halted_iff {i : Instr} (h : execWith p i s = .next s') : s'.status = .halted ↔ i = .halt := by
  constructor
  · intro hst
    obtain ⟨_, _, _, _, _, _, _, _, _, _, ⟨hc, _⟩ | ⟨_, _, hi⟩ | ⟨hf, _⟩⟩ := execWith_next h
    · cases hc.symm.trans hst
    · exact hi
    · cases hf.symm.trans hst
  · rintro rfl
    rw [halt_eq_next.mp h, State.setStatus_status]

/-- Settles O18: a step that ends at the fetch has failed, and of the instructions only HALT writes Halted. -/
theorem onlyHaltReachesHalted : Obligations.OnlyHaltReachesHalted := by
  unfold Obligations.OnlyHaltReachesHalted
  intro s s' h
  rw [step_eq_stepWith_default] at h
  change _ ↔ ∃ rest, decodeWith Params.default.opcodeMap (remainingCode s) = .instr .halt rest
  rcases stepWith_cases Params.default s with ⟨_, hd, hs⟩ | ⟨_, _, _, hd, hs⟩ | ⟨_, _, _, _, hd, hs⟩ |
    ⟨_, i, rest, _, _, _, hd, hs⟩ <;> rw [hs] at h <;> rw [hd]
  · simp [raise_eq_next.mp h]
  · simp [raise_eq_next.mp h]
  · simp [raise_eq_next.mp h]
  · simp [execWith_halted_iff h]

/-! ## The stack -/

/-- An instruction leaves the stack no deeper, or it is a PUSH_I64 that had room for its immediate. -/
theorem execWith_depth {i : Instr} (h : execWith p i s = .next s') :
    s'.stack.length ≤ s.stack.length ∨
      ∃ v, i = .pushI64 v ∧ hasRoom p.stackCap s.stack.length = true ∧ s'.stack = s.stack ++ [v] := by
  cases i with
  | skip =>
    obtain rfl := complete_eq_next.mp h
    exact .inl le_rfl
  | halt =>
    obtain rfl := halt_eq_next.mp h
    exact .inl le_rfl
  | pushI64 v =>
    simp only [execWith, pushI64With] at h
    split at h
    · obtain rfl := raise_eq_next.mp h
      exact .inl le_rfl
    · rcases withPush_cases p v (s.advance 8) complete with ⟨hroom, hp⟩ | ⟨_, hp⟩ <;> rw [hp] at h
      · obtain rfl := complete_eq_next.mp h
        exact .inr ⟨v, rfl, hroom, rfl⟩
      · cases h
  | pop =>
    rcases popWith_next (p := p) h with ⟨_, rfl⟩ | ⟨rest, v, hs, rfl⟩
    · exact .inl le_rfl
    · exact .inl (by simp [hs])
  | swap =>
    rcases swapWith_next h with ⟨_, rfl⟩ | ⟨rest, a, b, hs, rfl⟩
    · exact .inl (Nat.zero_le _)
    · exact .inl (by simp [hs])
  | add | sub | mul =>
    rcases binaryOp_next h with ⟨_, rfl⟩ | ⟨rest, a, b, hs, rfl⟩
    · exact .inl (Nat.zero_le _)
    · exact .inl (by simp [hs])
  | div | mod =>
    rcases divideOp_next h with ⟨_, rfl⟩ | ⟨rest, a, b, hs, _, rfl⟩ | ⟨rest, a, b, hs, _, _, rfl⟩ | ⟨rest, a, b, hs, _, _, rfl⟩
    · exact .inl (Nat.zero_le _)
    · exact .inl (by simp [hs])
    · exact .inl (by simp [hs])
    · exact .inl (by simp [hs])

/-- A step leaves the stack no deeper, or it ran a PUSH_I64 that had room for its immediate. -/
theorem stepWith_depth (h : stepWith p s = .next s') :
    s'.stack.length ≤ s.stack.length ∨
      ∃ v rest, decodeWith p.opcodeMap (remainingCode s) = .instr (.pushI64 v) rest ∧
        hasRoom p.stackCap s.stack.length = true ∧ s'.stack = s.stack ++ [v] := by
  rcases stepWith_cases p s with ⟨_, _, hs⟩ | ⟨_, _, _, _, hs⟩ | ⟨_, _, _, _, _, hs⟩ | ⟨_, i, rest, _, _, _, hd, hs⟩ <;>
    rw [hs] at h
  · exact .inl (by simp [raise_eq_next.mp h])
  · exact .inl (by simp [raise_eq_next.mp h])
  · exact .inl (by simp [raise_eq_next.mp h])
  · rcases execWith_depth h with hle | ⟨v, rfl, hroom, hst⟩
    · exact .inl hle
    · exact .inr ⟨v, rest, hd, hroom, hst⟩

/-- Settles O21: of the two things a step can do to the depth, only the push raises it. -/
theorem onlyPushDeepensTheStack : Obligations.OnlyPushDeepensTheStack := by
  unfold Obligations.OnlyPushDeepensTheStack
  intro s s' h hlt
  rw [step_eq_stepWith_default] at h
  rcases stepWith_depth h with hle | ⟨v, rest, hd, _, hst⟩
  · omega
  · exact ⟨v, rest, hd, hst⟩

/-- An instruction keeps all entries but the top two. -/
theorem execWith_getElem? {i : Instr} (h : execWith p i s = .next s') {k : Nat} (hk : k + 2 < s.stack.length) :
    s'.stack[k]? = s.stack[k]? := by
  obtain ⟨kept, dropped, pushed, hs, hdropped, _, hs', _⟩ := execWith_next h
  rw [hs, List.length_append] at hk
  rw [hs, hs', List.getElem?_append_left (by omega), List.getElem?_append_left (by omega)]

/-- Settles O22: a step that ends at the fetch keeps the stack, and an instruction keeps all but the top two. -/
theorem entriesBelowTopTwoStay : Obligations.EntriesBelowTopTwoStay := by
  unfold Obligations.EntriesBelowTopTwoStay
  intro p s s' h k hk
  rcases stepWith_next h with ⟨_, rfl⟩ | ⟨_, _, _, rfl⟩ | ⟨_, i, hi⟩
  · rfl
  · rfl
  · exact execWith_getElem? (s := s.advance 1) hi hk

/-! ## Failure -/

theorem take_of_eq_append_pair {st rest : List Word} {a b : Word} (h : st = rest ++ [a, b]) :
    2 ≤ st.length ∧ rest = st.take (st.length - 2) := by
  simp [h]

/-- What a failing step has done to the stack and to `ip`, by its reason (R202, R204). -/
theorem stepWith_failed (h : stepWith p s = .next s') (hf : s'.status = .failed) :
    (s'.reason = .ipOutOfRange ∧ s'.ip = s.ip ∧ s'.stack = s.stack) ∨
    (s'.ip = s.ip + 1 ∧
      ((s'.reason ∈ [Reason.illegalOpcode, .truncatedImmediate] ∧ s'.stack = s.stack) ∨
      (s'.reason = .stackUnderflow ∧ s.stack.length < 2 ∧ s'.stack = []) ∨
      (s'.reason ∈ [Reason.divByZero, .modByZero] ∧ ∃ a b, s.stack = s'.stack ++ [a, b]))) := by
  rcases stepWith_next h with ⟨_, rfl⟩ | ⟨_, r, hr, rfl⟩ | ⟨_, i, hi⟩
  · exact .inl ⟨rfl, rfl, rfl⟩
  · exact .inr ⟨rfl, .inl ⟨hr, rfl⟩⟩
  · have hip : s'.ip = s.ip + 1 := by
      obtain ⟨_, _, _, _, _, _, _, _, _, _, ⟨hc, _⟩ | ⟨hh, _⟩ | ⟨_, _, _, hip⟩⟩ := execWith_next hi
      · cases hc.symm.trans hf
      · cases hh.symm.trans hf
      · exact hip
    rcases execWith_failed hi hf with ⟨hr, hst⟩ | hunder | ⟨hr, hst⟩
    · exact .inr ⟨hip, .inl ⟨by simp [hr], hst⟩⟩
    · exact .inr ⟨hip, .inr (.inl hunder)⟩
    · exact .inr ⟨hip, .inr (.inr ⟨by simpa using hr, hst⟩)⟩

/-- Settles O19: the clauses read off the four shapes of a failing step. -/
theorem failingStepIsNotRolledBack : Obligations.FailingStepIsNotRolledBack := by
  unfold Obligations.FailingStepIsNotRolledBack
  intro s s' h hf
  rw [step_eq_stepWith_default] at h
  have hcode := stepWith_code h
  have hglobals := stepWith_globals h
  rcases stepWith_failed h hf with ⟨hr, hip, hst⟩ | ⟨hip, ⟨hr, hst⟩ | ⟨hr, hlt, hst⟩ | ⟨hr, a, b, hst⟩⟩
  · simp [hr, hip, hst, hcode, hglobals]
  · rcases List.mem_pair.mp hr with hr | hr <;> simp [hr, hip, hst, hcode, hglobals]
  · simp [hr, hip, hst, hcode, hglobals, hlt]
  · have htake := take_of_eq_append_pair hst
    rcases List.mem_pair.mp hr with hr | hr <;> simp [hr, hip, htake, hcode, hglobals]

/-- Settles O50: a step fails exactly when it writes a reason, and each flag tests FR for its own. -/
theorem flagsAreViewsOfTheReason : Obligations.FlagsAreViewsOfTheReason := by
  unfold Obligations.FlagsAreViewsOfTheReason
  refine ⟨fun s s' h => ?_, fun s => ⟨rfl, rfl⟩, fun b => ⟨rfl, rfl⟩⟩
  rw [step_eq_stepWith_default] at h
  have hf := stepWith_failed_iff h
  have hfailed {r : Reason} (hr : r ≠ .none) (hs : s'.reason = r) : s'.status = .failed := hf.mpr (hs ▸ hr)
  simp only [flagUF, flagDzDiv, flagDzMod, flagDZ, Bool.or_eq_true, beq_iff_eq, iff_and_self, iff_self, and_true]
  exact ⟨hfailed (by decide), hfailed (by decide), hfailed (by decide)⟩

end Sys2Proof.Machine
end

section
/-! Proofs of the exact cause of each failure reason (spec/60_exceptions.md section 1), first for an instruction and then for the
byte at `ip`, and of the step's dependence on Code, `ip` and the stack alone (spec/40_engine.md R106). -/

namespace Sys2Proof.Machine

variable {p : Params} {s s' : State}

/-! ## The causes of an instruction's failure -/

/-- The instructions that pop two entries. -/
def twoOperandInstrs : List Instr :=
  [.add, .sub, .mul, .div, .mod, .swap]

theorem not_length_lt_two {st rest : List Word} {a b : Word} (h : st = rest ++ [a, b]) : ¬st.length < 2 := by
  simp [h]

/-- An instruction underflows exactly when a pop of its own finds no entry. -/
theorem execWith_underflow_iff {i : Instr} (h : execWith p i s = .next s') :
    s'.reason = .stackUnderflow ↔ (i ∈ twoOperandInstrs ∧ s.stack.length < 2) ∨ (i = .pop ∧ s.stack = []) := by
  cases i with
  | skip => simp [complete_eq_next.mp h, twoOperandInstrs]
  | halt => simp [halt_eq_next.mp h, twoOperandInstrs]
  | pushI64 v =>
    rcases pushI64With_next h with ⟨_, rfl⟩ | ⟨_, rfl⟩ <;> simp [twoOperandInstrs]
  | pop =>
    rcases popWith_next (p := p) h with ⟨hs, rfl⟩ | ⟨rest, v, hs, rfl⟩ <;> simp [twoOperandInstrs, hs]
  | swap =>
    rcases swapWith_next h with ⟨hlt, rfl⟩ | ⟨rest, a, b, hs, rfl⟩
    · simp [twoOperandInstrs, hlt]
    · simp [twoOperandInstrs, not_length_lt_two hs]
  | add | sub | mul =>
    rcases binaryOp_next h with ⟨hlt, rfl⟩ | ⟨rest, a, b, hs, rfl⟩
    · simp [twoOperandInstrs, hlt]
    · simp [twoOperandInstrs, not_length_lt_two hs]
  | div | mod =>
    rcases divideOp_next h with ⟨hlt, rfl⟩ | ⟨rest, a, b, hs, _, rfl⟩ | ⟨rest, a, b, hs, _, _, rfl⟩ | ⟨rest, a, b, hs, _, _, rfl⟩
    · simp [twoOperandInstrs, hlt]
    all_goals simp [twoOperandInstrs, not_length_lt_two hs]

/-- A zero word on top of another entry. -/
def ZeroDivisor (st : List Word) : Prop :=
  ∃ rest a, st = rest ++ [a, 0]

theorem s64_eq_zero_iff {w : Word} : s64 w = 0 ↔ w = 0 :=
  BitVec.toInt_inj (y := 0)

theorem zeroDivisor_iff {st rest : List Word} {a b : Word} (h : st = rest ++ [a, b]) : ZeroDivisor st ↔ s64 b = 0 := by
  rw [s64_eq_zero_iff, ZeroDivisor, h]
  constructor
  · rintro ⟨rest', a', h'⟩
    have htop := (List.append_inj' h' rfl).2
    simp only [List.cons.injEq] at htop
    exact htop.2.1
  · rintro rfl
    exact ⟨rest, a, rfl⟩

theorem not_zeroDivisor_of_length_lt {st : List Word} (h : st.length < 2) : ¬ZeroDivisor st := by
  rintro ⟨rest, a, hs⟩
  exact not_length_lt_two hs h

/-- DIV and MOD raise their own reason exactly on a zero divisor. -/
theorem divideOp_reason_iff {z : Reason} {w : Word} {f : Word → Word → Word} (hz : z ∈ [Reason.divByZero, .modByZero])
    (h : divideOp p z w f s = .next s') : s'.reason = z ↔ ZeroDivisor s.stack := by
  have hnone : Reason.none ≠ z := by
    rintro rfl
    simp at hz
  have hunder : Reason.stackUnderflow ≠ z := by
    rintro rfl
    simp at hz
  rcases divideOp_next h with ⟨hlt, rfl⟩ | ⟨rest, a, b, hs, hb, rfl⟩ | ⟨rest, a, b, hs, ho, _, rfl⟩ | ⟨rest, a, b, hs, hb, _, rfl⟩
  · simp [hunder, not_zeroDivisor_of_length_lt hlt]
  · simp [zeroDivisor_iff hs, hb]
  · have hb : s64 b = -1 := (divOverflows_iff.mp ho).2
    simp [hnone, zeroDivisor_iff hs, hb]
  · simp [hnone, zeroDivisor_iff hs, hb]

/-- The reasons that one instruction alone can raise. -/
theorem instr_of_execWith_reason {i : Instr} (h : execWith p i s = .next s') :
    (s'.reason = .divByZero → i = .div) ∧ (s'.reason = .modByZero → i = .mod) ∧
      (s'.reason = .truncatedImmediate → i.opcode = .pushI64 ∧ s.code.length - s.ip < 8) := by
  cases i with
  | skip => simp [complete_eq_next.mp h]
  | halt => simp [halt_eq_next.mp h]
  | pushI64 v => rcases pushI64With_next h with ⟨hlt, rfl⟩ | ⟨_, rfl⟩ <;> simp [Instr.opcode, *]
  | pop => rcases popWith_next (p := p) h with ⟨_, rfl⟩ | ⟨_, _, _, rfl⟩ <;> simp
  | swap => rcases swapWith_next h with ⟨_, rfl⟩ | ⟨_, _, _, _, rfl⟩ <;> simp
  | add | sub | mul => rcases binaryOp_next h with ⟨_, rfl⟩ | ⟨_, _, _, _, rfl⟩ <;> simp
  | div | mod =>
    rcases divideOp_next h with ⟨_, rfl⟩ | ⟨_, _, _, _, _, rfl⟩ | ⟨_, _, _, _, _, _, rfl⟩ | ⟨_, _, _, _, _, _, rfl⟩ <;> simp

theorem execWith_divByZero_iff {i : Instr} (h : execWith p i s = .next s') :
    s'.reason = .divByZero ↔ i = .div ∧ ZeroDivisor s.stack := by
  constructor
  · intro hr
    obtain ⟨hdiv, -⟩ := instr_of_execWith_reason h
    obtain rfl := hdiv hr
    exact ⟨rfl, (divideOp_reason_iff (by simp) h).mp hr⟩
  · rintro ⟨rfl, hz⟩
    exact (divideOp_reason_iff (by simp) h).mpr hz

theorem execWith_modByZero_iff {i : Instr} (h : execWith p i s = .next s') :
    s'.reason = .modByZero ↔ i = .mod ∧ ZeroDivisor s.stack := by
  constructor
  · intro hr
    obtain ⟨-, hmod, -⟩ := instr_of_execWith_reason h
    obtain rfl := hmod hr
    exact ⟨rfl, (divideOp_reason_iff (by simp) h).mp hr⟩
  · rintro ⟨rfl, hz⟩
    exact (divideOp_reason_iff (by simp) h).mpr hz

/-! ## The causes of a step's failure -/

theorem stepWith_ipOutOfRange_iff (h : stepWith p s = .next s') : s'.reason = .ipOutOfRange ↔ s.code.length ≤ s.ip := by
  constructor
  · intro hr
    by_contra hlt
    exact (stepWith_inside (not_le.mp hlt) h).1 hr
  · intro hge
    rw [stepWith_pastEnd hge] at h
    exact reason_of_raise h

theorem stepWith_illegalOpcode_iff (h : stepWith p s = .next s') :
    s'.reason = .illegalOpcode ↔ ∃ b, codeByte s s.ip = some b ∧ decodeOpcode p.opcodeMap b = none := by
  refine ⟨illegal_byte_of_stepWith h, ?_⟩
  rintro ⟨b, hb, ho⟩
  rw [stepWith_illegal hb ho] at h
  exact reason_of_raise h

/-- Only the fetch raises TRUNCATED_IMMEDIATE in a step: a decoded PUSH_I64 has its eight bytes. -/
theorem stepWith_truncatedImmediate_iff (hm : p.opcodeMap.injective = true) (h : stepWith p s = .next s') :
    s'.reason = .truncatedImmediate ↔ codeByte s s.ip = some p.opcodeMap.pushI64 ∧ s.code.length - (s.ip + 1) < 8 := by
  constructor
  · intro hr
    rcases stepWith_cases p s with ⟨_, _, hs⟩ | ⟨_, _, _, _, hs⟩ | ⟨b, hb, ho, hlt, _, _⟩ | ⟨b, i, _, _, _, hrem, _, hs⟩
    · rw [hs] at h
      cases (reason_of_raise h).symm.trans hr
    · rw [hs] at h
      cases (reason_of_raise h).symm.trans hr
    · exact ⟨hb.trans (congrArg some (byteOf_of_decodeOpcode ho).symm), by omega⟩
    · rw [hs] at h
      obtain ⟨-, -, htruncated⟩ := instr_of_execWith_reason h
      obtain ⟨hi, hlt⟩ := htruncated hr
      have hroom := operandBytes_le_of_remainingCode hrem
      rw [Instr.length_operandBytes_of_pushI64 hi] at hroom
      rw [State.advance_code, State.advance_ip] at hlt
      omega
  · rintro ⟨hb, hlt⟩
    rw [stepWith_pushI64_truncated hm hb hlt] at h
    exact reason_of_raise h

/-- A reason that only instructions raise, and only one-byte ones, comes from the instruction whose byte is at `ip`. -/
theorem stepWith_reason_iff (hm : p.opcodeMap.injective = true) (h : stepWith p s = .next s') {r : Reason}
    (hr : r ∈ [Reason.stackUnderflow, .divByZero, .modByZero]) {cause : Instr → Prop} (hone : ∀ i, cause i → i.opcode ≠ .pushI64)
    (hcause : ∀ i, execWith p i (s.advance 1) = .next s' → (s'.reason = r ↔ cause i)) :
    s'.reason = r ↔ ∃ i, cause i ∧ codeByte s s.ip = some (p.opcodeMap.byteOf i.opcode) := by
  constructor
  · rintro rfl
    rcases stepWith_cases p s with ⟨_, _, hs⟩ | ⟨_, _, _, _, hs⟩ | ⟨_, _, _, _, _, hs⟩ | ⟨b, i, _, hb, ho, _, _, hs⟩ <;>
      rw [hs] at h
    · simp [reason_of_raise h] at hr
    · simp [reason_of_raise h] at hr
    · simp [reason_of_raise h] at hr
    · exact ⟨i, (hcause i h).mp rfl, by rw [hb, byteOf_of_decodeOpcode ho]⟩
  · rintro ⟨i, hi, hb⟩
    rw [stepWith_byteOf hm (hone i hi) hb] at h
    exact (hcause i h).mpr hi

/-- Settles O20: the three reasons of the fetch, and the three of instructions, each by the byte at `ip` and the stack. -/
theorem causeOfEachFailureReason : Obligations.CauseOfEachFailureReason := by
  unfold Obligations.CauseOfEachFailureReason
  intro s s' h
  rw [step_eq_stepWith_default] at h
  have hm := Params.default_opcodeMap_injective
  refine ⟨stepWith_ipOutOfRange_iff h, stepWith_truncatedImmediate_iff hm h, ?_, ?_, ?_, ?_⟩
  · simpa [decodeOpcode_default_eq_none_iff] using stepWith_illegalOpcode_iff h
  · rw [stepWith_reason_iff hm h (by simp) ?_ fun i => execWith_underflow_iff]
    · have hbytes : ([0x02, 0x04, 0x05, 0x06, 0x07, 0x09] : List Byte) =
          twoOperandInstrs.map fun i => OpcodeMap.default.byteOf i.opcode := rfl
      rw [hbytes]
      constructor
      · rintro ⟨i, ⟨hi, hlt⟩ | ⟨rfl, hnil⟩, hb⟩
        · exact .inl ⟨⟨_, List.mem_map_of_mem hi, hb⟩, hlt⟩
        · exact .inr ⟨hb, hnil⟩
      · rintro (⟨⟨_, hmem, hb⟩, hlt⟩ | ⟨hb, hnil⟩)
        · obtain ⟨i, hi, rfl⟩ := List.mem_map.mp hmem
          exact ⟨i, .inl ⟨hi, hlt⟩, hb⟩
        · exact ⟨.pop, .inr ⟨rfl, hnil⟩, hb⟩
    · rintro i (⟨hi, _⟩ | ⟨rfl, _⟩)
      · revert i
        decide
      · decide
  · rw [stepWith_reason_iff hm h (by simp) ?_ fun i => execWith_divByZero_iff]
    · simp [Instr.opcode, OpcodeMap.byteOf, OpcodeMap.default, ZeroDivisor, and_comm]
    · rintro i ⟨rfl, _⟩
      decide
  · rw [stepWith_reason_iff hm h (by simp) ?_ fun i => execWith_modByZero_iff]
    · simp [Instr.opcode, OpcodeMap.byteOf, OpcodeMap.default, ZeroDivisor, and_comm]
    · rintro i ⟨rfl, _⟩
      decide

/-! ## What a step reads -/

/-- The state with other globals. -/
def State.withGlobals (s : State) (g : List Word) : State :=
  { s with globals := g }

/-- An outcome with other globals in its next state. -/
def outcomeWithGlobals (g : List Word) : StepOutcome → StepOutcome
  | .next s => .next (s.withGlobals g)
  | .fault f => .fault f
  | .refused r => .refused r

section Globals

variable (g : List Word)

/-- A pop does not read the globals when what follows it does not. -/
theorem withPop_withGlobals {k : Word → State → StepOutcome}
    (hk : ∀ v t, k v (t.withGlobals g) = outcomeWithGlobals g (k v t)) (s : State) :
    withPop (s.withGlobals g) k = outcomeWithGlobals g (withPop s k) := by
  rcases withPop_cases s k with ⟨hs, h⟩ | ⟨rest, v, hs, h⟩
  · rw [h, withPop_nil (s := s.withGlobals g) hs]
    rfl
  · rw [h, withPop_append (s := s.withGlobals g) hs]
    exact hk v (s.setStack rest)

theorem withPop2_withGlobals {k : Word → Word → State → StepOutcome}
    (hk : ∀ a b t, k a b (t.withGlobals g) = outcomeWithGlobals g (k a b t)) (s : State) :
    withPop2 (s.withGlobals g) k = outcomeWithGlobals g (withPop2 s k) :=
  withPop_withGlobals g (fun b => withPop_withGlobals g fun a => hk a b) s

/-- A push does not read the globals when what follows it does not. -/
theorem withPush_withGlobals {k : State → StepOutcome} (hk : ∀ t, k (t.withGlobals g) = outcomeWithGlobals g (k t)) (p : Params)
    (v : Word) (s : State) : withPush p v (s.withGlobals g) k = outcomeWithGlobals g (withPush p v s k) := by
  have hlen : (s.withGlobals g).stack.length = s.stack.length := rfl
  cases h : hasRoom p.stackCap s.stack.length
  · simp only [withPush, hlen, h]
    rfl
  · simp only [withPush, hlen, h]
    exact hk (s.setStack (s.stack ++ [v]))

theorem complete_withGlobals (s : State) : complete (s.withGlobals g) = outcomeWithGlobals g (complete s) := rfl

theorem divideOp_withGlobals (p : Params) (z : Reason) (w : Word) (f : Word → Word → Word) (s : State) :
    divideOp p z w f (s.withGlobals g) = outcomeWithGlobals g (divideOp p z w f s) := by
  refine withPop2_withGlobals g (fun a b t => ?_) s
  split
  · rfl
  · split
    · split
      · exact withPush_withGlobals g (complete_withGlobals g) p w t
      · rfl
    · exact withPush_withGlobals g (complete_withGlobals g) p _ t

/-- No instruction reads the globals. -/
theorem execWith_withGlobals (p : Params) (i : Instr) (s : State) :
    execWith p i (s.withGlobals g) = outcomeWithGlobals g (execWith p i s) := by
  have hpush := withPush_withGlobals g (complete_withGlobals g) p
  cases i with
  | skip | halt => rfl
  | pushI64 v =>
    have hroom : (s.withGlobals g).code.length - (s.withGlobals g).ip = s.code.length - s.ip := rfl
    simp only [execWith, pushI64With, hroom]
    split
    · rfl
    · exact hpush v (s.advance 8)
  | pop => exact withPop_withGlobals g (fun _ t => complete_withGlobals g t) s
  | swap => exact withPop2_withGlobals g (fun a b t => withPush_withGlobals g (hpush a) p b t) s
  | add | sub | mul => exact withPop2_withGlobals g (fun _ _ t => hpush _ t) s
  | div | mod => exact divideOp_withGlobals g p _ _ _ s

/-- No step reads the globals. -/
theorem stepWith_withGlobals (p : Params) (s : State) :
    stepWith p (s.withGlobals g) = outcomeWithGlobals g (stepWith p s) := by
  have hcode : remainingCode (s.withGlobals g) = remainingCode s := rfl
  simp only [stepWith, fetchWith, hcode]
  cases decodeWith p.opcodeMap (remainingCode s) with
  | instr i rest => exact execWith_withGlobals g p i (s.advance 1)
  | illegal _ | truncated | endOfCode => rfl

end Globals

/-- A state that agrees on Code, `ip` and the stack steps alike, but for the globals that it keeps. -/
theorem stepWith_eq_outcomeWithGlobals {t : State} (hcode : s.code = t.code) (hip : s.ip = t.ip) (hstack : s.stack = t.stack) :
    stepWith p t = outcomeWithGlobals t.globals (stepWith p s) := by
  have ht : t = (s.withGlobals t.globals).setStatus t.status t.reason := by
    simp [State.withGlobals, State.setStatus, hcode, hip, hstack]
  rw [← stepWith_withGlobals, ← stepWith_setStatus p (s.withGlobals t.globals) t.status t.reason, ← ht]

/-- Settles O23: the one equation on outcomes, read for each of the three. -/
theorem stepReadsCodeIpAndStackOnly : Obligations.StepReadsCodeIpAndStackOnly := by
  unfold Obligations.StepReadsCodeIpAndStackOnly
  intro p s t hcode hip hstack
  rw [stepWith_eq_outcomeWithGlobals hcode hip hstack]
  refine ⟨fun s' h => ?_, fun f h => ?_, fun r h => ?_⟩ <;> rw [h] <;> rfl

end Sys2Proof.Machine
end

section
/-! Proofs of the arithmetic (spec/42_arithmetic.md): the wrap and the storage of an integer, the five results as 64-bit operations,
the division identity (R158), the overflow cases (R160) and the sign table (R157). -/

namespace Sys2Proof.Machine

/-! ## The signed range and the wrap (R8, R150) -/

/-- The integers that a word holds. -/
def InRange (n : Int) : Prop :=
  minValue ≤ n ∧ n ≤ maxValue

theorem inRange_iff {n : Int} : InRange n ↔ -9223372036854775808 ≤ n ∧ n ≤ 9223372036854775807 := Iff.rfl

theorem inRange_wrap (n : Int) : InRange (wrap n) := by
  rw [inRange_iff, wrap]
  omega

/-- `wrap` leaves exactly the integers of the range alone. -/
theorem wrap_eq_self_iff {n : Int} : wrap n = n ↔ InRange n := by
  rw [inRange_iff, wrap]
  omega

theorem wrap_eq_add_mul (n : Int) : ∃ k : Int, wrap n = n + k * 2 ^ 64 := by
  refine ⟨-((n + 9223372036854775808) / 18446744073709551616), ?_⟩
  rw [wrap]
  omega

theorem wrap_eq_bmod (n : Int) : wrap n = n.bmod (2 ^ 64) := by
  rw [wrap, Int.bmod_def]
  norm_num
  omega

/-- A stored integer reads back wrapped. -/
theorem s64_w64 (n : Int) : s64 (w64 n) = wrap n := by
  rw [s64, w64, BitVec.toInt_ofInt, wrap_eq_bmod]

theorem inRange_s64 (w : Word) : InRange (s64 w) :=
  ⟨w.le_toInt, Int.le_of_lt_add_one w.toInt_lt⟩

/-- Settles O35: the lemmas above, and a wrapped integer is of the range, so it is stored without loss. -/
theorem wrapReducesIntoSignedRange : Obligations.WrapReducesIntoSignedRange := by
  unfold Obligations.WrapReducesIntoSignedRange
  intro n
  obtain ⟨hmin, hmax⟩ := inRange_wrap n
  refine ⟨hmin, hmax, wrap_eq_add_mul n, fun h h' => wrap_eq_self_iff.mpr ⟨h, h'⟩, ?_⟩
  rw [s64_w64, wrap_eq_self_iff.mpr (inRange_wrap n)]

/-! ## The results as integers -/

section Results

variable (a b : Word)

theorem s64_aluAdd : s64 (aluAdd a b) = wrap (s64 a + s64 b) := by
  rw [aluAdd, s64_w64, wrap_eq_self_iff.mpr (inRange_wrap _)]

theorem s64_aluSub : s64 (aluSub a b) = wrap (s64 a - s64 b) := by
  rw [aluSub, s64_w64, wrap_eq_self_iff.mpr (inRange_wrap _)]

theorem s64_aluMul : s64 (aluMul a b) = wrap (s64 a * s64 b) := by
  rw [aluMul, s64_w64, wrap_eq_self_iff.mpr (inRange_wrap _)]

theorem s64_aluDiv : s64 (aluDiv a b) = wrap ((s64 a).tdiv (s64 b)) :=
  s64_w64 _

/-- The remainder is of the range for every divisor: it is below a non-zero one, and the dividend itself for zero. -/
theorem inRange_tmod : InRange ((s64 a).tmod (s64 b)) := by
  by_cases hb : s64 b = 0
  · rw [hb, Int.tmod_zero]
    exact inRange_s64 a
  · have hlt : ((s64 a).tmod (s64 b)).natAbs < (s64 b).natAbs := by
      rw [Int.natAbs_tmod]
      exact Nat.mod_lt _ (Int.natAbs_pos.mpr hb)
    have hrange := inRange_iff.mp (inRange_s64 b)
    rw [inRange_iff]
    omega

theorem s64_aluMod : s64 (aluMod a b) = (s64 a).tmod (s64 b) := by
  rw [aluMod, s64_w64, trem, tdiv, ← Int.tmod_def, wrap_eq_self_iff.mpr (inRange_tmod a b)]

end Results

/-- Settles O36: both sides of each equation have the same signed value. -/
theorem aluIsBitVectorArithmetic : Obligations.AluIsBitVectorArithmetic := by
  unfold Obligations.AluIsBitVectorArithmetic
  intro a b
  refine ⟨?_, ?_, ?_, ?_, ?_⟩ <;> apply BitVec.eq_of_toInt_eq
  · exact (s64_aluAdd a b).trans (by rw [wrap_eq_bmod, BitVec.toInt_add, s64, s64])
  · exact (s64_aluSub a b).trans (by rw [wrap_eq_bmod, BitVec.toInt_sub, s64, s64])
  · exact (s64_aluMul a b).trans (by rw [wrap_eq_bmod, BitVec.toInt_mul, s64, s64])
  · exact (s64_aluDiv a b).trans (by rw [wrap_eq_bmod, BitVec.toInt_sdiv, s64, s64])
  · exact (s64_aluMod a b).trans (BitVec.toInt_srem a b).symm

/-! ## The quotient -/

/-- The quotient leaves the range for the overflow pair alone: a divisor of magnitude two or more at least halves the dividend. -/
theorem inRange_tdiv_iff {x y : Int} (hx : InRange x) : InRange (x.tdiv y) ↔ ¬(x = minValue ∧ y = -1) := by
  rw [inRange_iff] at hx ⊢
  rw [minValue]
  rcases lt_or_ge y.natAbs 2 with hsmall | hlarge
  · have hy : y = -1 ∨ y = 0 ∨ y = 1 := by omega
    rcases hy with rfl | rfl | rfl
    · rw [Int.tdiv_neg, Int.tdiv_one]
      omega
    · rw [Int.tdiv_zero]
      omega
    · rw [Int.tdiv_one]
      omega
  · have hhalf : (x.tdiv y).natAbs ≤ x.natAbs / 2 := by
      rw [Int.natAbs_tdiv]
      exact Nat.div_le_div_left hlarge (by decide)
    omega

section Division

variable {a b : Word}

/-- Outside the overflow pair DIV's result is the quotient itself. -/
theorem s64_aluDiv_eq_tdiv_iff : s64 (aluDiv a b) = (s64 a).tdiv (s64 b) ↔ ¬(s64 a = minValue ∧ s64 b = -1) := by
  rw [s64_aluDiv, wrap_eq_self_iff, inRange_tdiv_iff (inRange_s64 a)]

/-- A truncated remainder is zero or has the dividend's sign. -/
theorem tmod_eq_zero_or_neg_iff (x y : Int) : x.tmod y = 0 ∨ (x.tmod y < 0 ↔ x < 0) := by
  have hsign := Int.sign_tmod x y
  split at hsign
  · exact .inl (Int.sign_eq_zero_iff_zero.mp hsign)
  · exact .inr (by rw [← Int.sign_neg_iff, hsign, Int.sign_neg_iff])

theorem natAbs_mul_tdiv_le (x y : Int) : (y * x.tdiv y).natAbs ≤ x.natAbs := by
  rw [Int.natAbs_mul, Int.natAbs_tdiv]
  exact Nat.mul_div_le _ _

/-- Settles O37: outside the overflow pair the pushed values are the quotient and the remainder; on it they are MIN and 0. -/
theorem divisionIdentity : Obligations.DivisionIdentity := by
  unfold Obligations.DivisionIdentity
  intro s rest a b hs hb
  by_cases ho : s64 a = minValue ∧ s64 b = -1
  · obtain ⟨ha, hneg⟩ := ho
    refine ⟨w64 minValue, w64 0, divideOp_default_overflow hs ha hneg .divByZero (w64 minValue) aluDiv,
      divideOp_default_overflow hs ha hneg .modByZero (w64 0) aluMod, fun hn => absurd ⟨ha, hneg⟩ hn, fun _ _ => ?_⟩
    rw [ha, hneg, s64_w64, s64_w64]
    decide
  · refine ⟨aluDiv a b, aluMod a b, divideOp_default hs hb ho .divByZero (w64 minValue) aluDiv,
      divideOp_default hs hb ho .modByZero (w64 0) aluMod, fun _ => ?_, fun ha hneg => absurd ⟨ha, hneg⟩ ho⟩
    rw [s64_aluDiv_eq_tdiv_iff.mpr ho, s64_aluMod]
    refine ⟨(Int.mul_tdiv_add_tmod _ _).symm, ?_, tmod_eq_zero_or_neg_iff _ _, natAbs_mul_tdiv_le _ _⟩
    rw [Int.natAbs_tmod]
    exact Nat.mod_lt _ (Int.natAbs_pos.mpr hb)

end Division

/-- Settles O38: a result is stored exactly when it is of the range; for ADD and SUB, the signs tell whether it is. -/
theorem overflowCases : Obligations.OverflowCases := by
  unfold Obligations.OverflowCases
  intro a b
  have ha := inRange_iff.mp (inRange_s64 a)
  have hb := inRange_iff.mp (inRange_s64 b)
  refine ⟨?_, ?_, ?_, fun _ => ?_, fun _ => ?_⟩
  · rw [s64_aluAdd, wrap]
    omega
  · rw [s64_aluSub, wrap]
    omega
  · rw [s64_aluMul, ne_eq, wrap_eq_self_iff, InRange, not_and_or, not_le, not_le]
  · rw [ne_eq, s64_aluDiv_eq_tdiv_iff, not_not]
  · rw [s64_aluMod, Int.tmod_def]

/-- Settles O39: the thirteen rows, computed. -/
theorem divisionSignTable : Obligations.DivisionSignTable := by
  unfold Obligations.DivisionSignTable
  decide

end Sys2Proof.Machine
end

section
/-! Proofs of the step on the encoding of an instruction (spec/40_engine.md section 1), of SKIP, POP and SWAP
(spec/43_control.md section 2, spec/41_stack.md), of the laws of two steps (R131, R137), and of runs: the SKIP law (R183), that every
run ends (R111), and what a second RUN goes on from (R113). -/

namespace Sys2Proof.Machine

variable {p : Params} {s s' : State}

/-! ## One step -/

/-- Settles O8: the step is at the default parameters, where `execWith` is `exec`. -/
theorem stepRunsDecodedInstruction : Obligations.StepRunsDecodedInstruction := by
  unfold Obligations.StepRunsDecodedInstruction
  intro s i rest h
  rw [step_eq_stepWith_default, exec_eq_execWith_default]
  exact stepWith_of_decodeWith_instr (p := Params.default) h

/-- On an instruction's encoding the step runs it with `ip` past the opcode byte (R102). -/
theorem stepWith_of_encodeWith (hm : p.opcodeMap.injective = true) {i : Instr} {rest : List Byte}
    (h : remainingCode s = encodeWith p.opcodeMap i ++ rest) : stepWith p s = execWith p i (s.advance 1) := by
  apply stepWith_of_decodeWith_instr
  rw [h, decodeWith_encodeWith hm]

/-- The code after an encoding is what remains from its end on. -/
theorem remainingCode_of_append {t : State} {bytes rest : List Byte} (h : remainingCode s = bytes ++ rest) (hcode : t.code = s.code)
    (hip : t.ip = s.ip + bytes.length) : remainingCode t = rest := by
  rw [remainingCode, hcode, hip, ← List.drop_drop]
  change (remainingCode s).drop bytes.length = rest
  rw [h, List.drop_left]

/-- Settles O24: SKIP has no operand bytes, and its meaning is completion. -/
theorem skipOnlyCompletes : Obligations.SkipOnlyCompletes := by
  unfold Obligations.SkipOnlyCompletes
  exact ⟨fun _ => rfl, fun _ => rfl⟩

/-- Settles O27: the one pop on either shape of the stack. -/
theorem popDiscardsTheTop : Obligations.PopDiscardsTheTop := by
  unfold Obligations.PopDiscardsTheTop
  exact ⟨fun s rest v hs => withPop_append hs _, fun s hs => withPop_nil hs _⟩

/-- Settles O28: the two pops and two pushes on a top two, and the underflow. -/
theorem swapExchangesTheTopTwo : Obligations.SwapExchangesTheTopTwo := by
  unfold Obligations.SwapExchangesTheTopTwo
  exact ⟨fun s rest a b hs => swapWith_append (p := Params.default) rfl hs, fun s hlt => swapWith_underflow hlt⟩

/-! ## Two steps -/

/-- Settles O40: the push leaves POP's byte at `ip` and the immediate on top, which POP takes away. -/
theorem pushThenPopRestoresTheStack : Obligations.PushThenPopRestoresTheStack := by
  unfold Obligations.PushThenPopRestoresTheStack
  simp only [step_eq_stepWith_default]
  intro s v rest h
  have hm := Params.default_opcodeMap_injective
  let s₁ := ((s.advance 9).setStack (s.stack ++ [v])).setStatus .continuing .none
  have hroom : (s.advance 1).ip + 8 ≤ (s.advance 1).code.length :=
    operandBytes_le_of_remainingCode (i := .pushI64 v) h
  have hpush : stepWith Params.default s = .next s₁ :=
    (stepWith_of_encodeWith hm h).trans (pushI64With_unbounded rfl hroom v)
  have hnext : remainingCode s₁ = encode .pop ++ rest := remainingCode_of_append h rfl rfl
  have hpop : stepWith Params.default s₁ = complete ((s₁.advance 1).setStack s.stack) :=
    (stepWith_of_encodeWith hm hnext).trans (withPop_append rfl _)
  exact ⟨s₁, hpush, hpop⟩

/-- Settles O41: the first SWAP leaves the second's byte at `ip` and the top two exchanged, and the second exchanges them back. -/
theorem swapTwiceRestoresTheStack : Obligations.SwapTwiceRestoresTheStack := by
  unfold Obligations.SwapTwiceRestoresTheStack
  simp only [step_eq_stepWith_default]
  intro s rest hdepth h
  have hm := Params.default_opcodeMap_injective
  obtain ⟨below, a, b, hs⟩ : ∃ below a b, s.stack = below ++ [a, b] := by
    rcases stack_cases2 s.stack with hs | ⟨v, hs⟩ | hs
    · simp [hs] at hdepth
    · simp [hs] at hdepth
    · exact hs
  let s₁ := ((s.advance 1).setStack (below ++ [b, a])).setStatus .continuing .none
  have hfirst : stepWith Params.default s = .next s₁ :=
    (stepWith_of_encodeWith hm h).trans (swapWith_append rfl hs)
  have hnext : remainingCode s₁ = encode .swap ++ rest := remainingCode_of_append h rfl rfl
  have hsecond : stepWith Params.default s₁ = complete ((s₁.advance 1).setStack (below ++ [a, b])) :=
    (stepWith_of_encodeWith hm hnext).trans (swapWith_append rfl rfl)
  refine ⟨s₁, hfirst, rfl, hsecond.trans ?_⟩
  rw [← hs]
  rfl

/-! ## Runs -/

/-- A run over SKIP bytes up to a HALT byte, by one step and the rest of the run (R183). -/
theorem runWith_skips_halt (hm : p.opcodeMap.injective = true) {k : Nat} {rest : List Byte}
    (h : remainingCode s = List.replicate k p.opcodeMap.skip ++ p.opcodeMap.halt :: rest) :
    runWith p s = .next ((s.advance (k + 1)).setStatus .halted .none) := by
  induction k generalizing s with
  | zero => exact runWith_eq_of_terminal (stepWith_of_encodeWith (i := .halt) hm h) (by simp)
  | succ k ih =>
    let s₁ := (s.advance 1).setStatus .continuing .none
    have hskip : stepWith p s = .next s₁ := stepWith_of_encodeWith (i := .skip) hm h
    have hnext : remainingCode s₁ = List.replicate k p.opcodeMap.skip ++ p.opcodeMap.halt :: rest :=
      remainingCode_of_append (bytes := [p.opcodeMap.skip]) h rfl rfl
    rw [runWith_eq_runWith_of_continuing hskip rfl, ih hnext]
    simp only [s₁, State.advance, State.setStatus]
    congr 2
    omega

/-- Settles O42: the law under any injective map, at the default one. -/
theorem skipsThenHaltAlwaysHalts : Obligations.SkipsThenHaltAlwaysHalts := by
  unfold Obligations.SkipsThenHaltAlwaysHalts
  simp only [run_eq_runWith_default]
  exact fun k s rest h => runWith_skips_halt Params.default_opcodeMap_injective h

/-- With no capacity and under the wrap policy the loop ends by its own test within `runBound` steps (R111). -/
theorem runLoop_ends (hcap : p.stackCap = none) (hovf : p.divOvfPolicy = .wrap) {fuel : Nat} (hfuel : runBound s ≤ fuel) :
    ∃ s', runLoop (stepWith p) fuel s = .next s' ∧ s'.status ≠ .continuing := by
  induction fuel generalizing s with
  | zero => simp [runBound] at hfuel
  | succ n ih =>
    by_cases hst : s.status = .continuing
    · obtain ⟨s₁, hstep⟩ := stepWith_answers hcap hovf s
      rw [runLoop_continuing hst hstep]
      by_cases hst₁ : s₁.status = .continuing
      · have hlt := runBound_lt_of_continuing hstep hst₁
        exact ih (by omega)
      · exact ⟨s₁, runLoop_done hst₁ n, hst₁⟩
    · exact ⟨s, runLoop_done hst (n + 1), hst⟩

/-- RUN is the loop from its entry with any fuel of at least `runBound`. -/
theorem runWith_eq_runLoop {fuel : Nat} (hfuel : runBound s ≤ fuel) : runWith p s = runLoop (stepWith p) fuel s.resume :=
  runLoop_eq_of_runBound_le (s := s.resume) le_rfl hfuel

/-- Settles O43: the loop with the bound as its fuel ends by its own test, and more fuel makes no difference. -/
theorem everyRunEnds : Obligations.EveryRunEnds := by
  unfold Obligations.EveryRunEnds
  intro s
  obtain ⟨s', hrun, hst⟩ := runLoop_ends (p := Params.default) (s := s.resume) rfl rfl le_rfl
  have hrun' : run s = .next s' := (run_eq_runWith_default s).trans hrun
  refine ⟨s', ⟨hrun', hst⟩, fun fuel hfuel => ?_⟩
  rw [funext step_eq_stepWith_default, ← runWith_eq_runLoop hfuel]
  exact hrun

theorem stepWith_ip_le (h : stepWith p s = .next s') : s.ip ≤ s'.ip := by
  rcases Nat.lt_or_ge s.ip s.code.length with hlt | hge
  · exact Nat.le_of_lt (stepWith_inside hlt h).2
  · rw [stepWith_pastEnd hge] at h
    rw [raise_eq_next.mp h, State.setStatus_ip]

/-- A run keeps the code and the globals and never moves `ip` back. -/
theorem runWith_frame (h : runWith p s = .next s') : s'.code = s.code ∧ s'.globals = s.globals ∧ s.ip ≤ s'.ip := by
  refine runLoop_keeps (P := fun t => t.code = s.code ∧ t.globals = s.globals ∧ s.ip ≤ t.ip) (s := s.resume) ?_ ⟨rfl, rfl, le_rfl⟩ h
  rintro t t' ⟨hcode, hglobals, hip⟩ hstep
  exact ⟨(stepWith_code hstep).trans hcode, (stepWith_globals hstep).trans hglobals, hip.trans (stepWith_ip_le hstep)⟩

/-- Settles O45: RUN's entry writes ST and FR alone, the frame of a run, and the failed range check as a run's only step. -/
theorem runResumesAtTheInstructionPointer : Obligations.RunResumesAtTheInstructionPointer := by
  unfold Obligations.RunResumesAtTheInstructionPointer
  simp only [run_eq_runWith_default, funext step_eq_stepWith_default]
  refine ⟨fun s fuel hfuel => runWith_eq_runLoop hfuel, fun s ru r => runWith_setStatus Params.default s ru r,
    fun s s' => runWith_frame, fun s hge => ?_⟩
  exact runWith_eq_of_terminal (stepWith_pastEnd hge) (by simp)

end Sys2Proof.Machine
end

section
/-! Proofs of LOAD (spec/70_reset_and_hazards.md section 2): its checks in order, when it answers OK, and a finite MAX_CODE_LEN; and of
what the host reads: STATUS (spec/10_state.md R29), the load-error codes (spec/60_exceptions.md R210) and the four commands
(spec/40_engine.md section 3). -/

namespace Sys2Proof.Machine

variable {p : Params}

/-! ## The checks of LOAD -/

theorem loadWith_of_validate {src : LoadSource} {e : LoadResult} (he : e ≠ .ok) (h : validate src = e) (p : Params) (s : State) :
    loadWith p src s = .next (s, e) := by
  rw [loadWith_error (h ▸ he), h]

/-- A LOAD that passes every check resets the machine when MAX_CODE_LEN admits the code. -/
theorem loadWith_of_fits {src : LoadSource} (h : validate src = .ok)
    (hfits : codeFits p.maxCodeLen (bytecodeSection src).length = true) (s : State) :
    loadWith p src s = .next (loadReset (bytecodeSection src), .ok) := by
  rw [loadWith_ok h, if_pos hfits]

theorem validate_tooSmall {size : Nat} (h : size < 8) (data : List Byte) : validate (.file size data) = .tooSmall := by
  simp [validate, h]

theorem validate_shortHeader {size : Nat} {data : List Byte} (h : 8 ≤ size) (hd : data.length < 8) :
    validate (.file size data) = .truncated := by
  simp [validate, Nat.not_lt.mpr h, hd]

/-- With a whole header, the checks look at its three fields and then at the length of what follows (R235 to R239). -/
theorem validate_header {size : Nat} {header : List Byte} (h : 8 ≤ size) (hh : header.length = 8) (body : List Byte) :
    validate (.file size (header ++ body)) =
      if header.take 4 ≠ magicBytes then .badMagic
      else if (header.drop 4).take 2 ≠ versionBytes then .badVersion
      else if header.drop 6 ≠ flagBytes then .badFlags
      else if size = 8 then .emptyCode
      else if body.length < size - 8 then .truncated
      else .ok := by
  have hlen : ¬(header ++ body).length < 8 := by simp [hh]
  have hmagic : (header ++ body).take 4 = header.take 4 := List.take_append_of_le_length (by omega)
  have hversion : ((header ++ body).drop 4).take 2 = (header.drop 4).take 2 := by
    rw [List.drop_append_of_le_length (by omega), List.take_append_of_le_length (by simp [hh])]
  have hflags : ((header ++ body).drop 6).take 2 = header.drop 6 := by
    rw [List.drop_append_of_le_length (by omega), List.take_left' (by simp [hh])]
  have hempty : size - 8 = 0 ↔ size = 8 := by omega
  have hbody : (header ++ body).length - 8 = body.length := by simp [hh]
  simp only [validate, if_neg (Nat.not_lt.mpr h), if_neg hlen, hmagic, hversion, hflags, hempty, hbody]

/-- Behind a header of eight bytes lies the bytecode section (R238). -/
theorem bytecodeSection_append {header : List Byte} (hh : header.length = 8) (size : Nat) (body : List Byte) :
    bytecodeSection (.file size (header ++ body)) = body.take (size - 8) := by
  rw [bytecodeSection, List.drop_left' hh]

/-- Settles O47: each clause is one outcome of the checks, of which the header's are in `validate_header`. -/
theorem loadChecksInOrder : Obligations.LoadChecksInOrder := by
  unfold Obligations.LoadChecksInOrder
  refine fun p s => ⟨rfl, fun size data => ⟨fun hsize => ?_, fun hsize hshort => ?_, fun hsize header body hlen hdata => ?_⟩⟩
  · exact loadWith_of_validate (by decide) (validate_tooSmall hsize data) p s
  · exact loadWith_of_validate (by decide) (validate_shortHeader hsize hshort) p s
  · subst hdata
    have hv := validate_header hsize hlen body
    refine ⟨fun hmagic => ?_, fun v0 v1 f0 f1 hheader => ?_⟩
    · exact loadWith_of_validate (by decide) (hv.trans (if_pos hmagic)) p s
    · subst hheader
      simp only [List.take_succ_cons, List.take_zero, List.drop_succ_cons, List.drop_zero, magicBytes, versionBytes, flagBytes,
        ne_eq, not_true_eq_false, if_false, List.cons.injEq, and_true] at hv
      refine ⟨fun hversion => ?_, fun hv0 hv1 => ?_⟩
      · exact loadWith_of_validate (by decide) (hv.trans (if_pos hversion)) p s
      rw [if_neg (not_not.mpr ⟨hv0, hv1⟩)] at hv
      refine ⟨fun hflags => ?_, fun hf0 hf1 => ?_⟩
      · exact loadWith_of_validate (by decide) (hv.trans (if_pos hflags)) p s
      rw [if_neg (not_not.mpr ⟨hf0, hf1⟩)] at hv
      refine ⟨fun hempty => ?_, fun hmore hless => ?_, fun hmore hfull hcap => ?_⟩
      · exact loadWith_of_validate (by decide) (hv.trans (if_pos hempty)) p s
      · rw [if_neg hmore.ne', if_pos hless] at hv
        exact loadWith_of_validate (by decide) hv p s
      · rw [if_neg hmore.ne', if_neg (Nat.not_lt.mpr hfull)] at hv
        have hsection := bytecodeSection_append hlen size body
        have hfits : codeFits p.maxCodeLen (body.take (size - 8)).length = true := by
          rw [List.length_take, Nat.min_eq_left hfull]
          cases hmax : p.maxCodeLen with
          | none => rfl
          | some cap => exact codeFits_some.mpr (hcap cap hmax)
        rw [loadWith_of_fits hv (by rw [hsection, hfits]), hsection]
        rfl

/-! ## When LOAD answers OK -/

theorem container_eq_append (code : List Byte) : container code = container [] ++ code := by
  simp [container]

/-- Every check passes exactly on a version 1 container of some code, delivered in full (R233 to R239). -/
theorem validate_eq_ok_iff {src : LoadSource} :
    validate src = .ok ↔ ∃ code rest, code ≠ [] ∧ src = .file (8 + code.length) (container code ++ rest) := by
  constructor
  · intro h
    cases src with
    | unreadable => cases h
    | file size data =>
      rcases Nat.lt_or_ge size 8 with hsize | hsize
      · cases (validate_tooSmall hsize data).symm.trans h
      rcases Nat.lt_or_ge data.length 8 with hdata | hdata
      · cases (validate_shortHeader hsize hdata).symm.trans h
      have hlen : (data.take 8).length = 8 := by simpa using hdata
      have hv := validate_header hsize hlen (data.drop 8)
      rw [List.take_append_drop, h] at hv
      split_ifs at hv with hmagic hversion hflags hempty hless
      simp only [ne_eq, not_not] at hmagic hversion hflags
      have hheader : data.take 8 = container [] := by
        rw [← List.take_append_drop 4 (data.take 8), ← List.take_append_drop 2 ((data.take 8).drop 4), List.drop_drop, hmagic,
          hversion, hflags]
        rfl
      refine ⟨(data.drop 8).take (size - 8), (data.drop 8).drop (size - 8), ?_, ?_⟩
      · rw [← List.length_pos_iff, List.length_take]
        omega
      · rw [container_eq_append, List.append_assoc, List.take_append_drop, ← hheader, List.take_append_drop, List.length_take]
        congr 1
        omega
  · rintro ⟨code, rest, hcode, rfl⟩
    have hpos := List.length_pos_iff.mpr hcode
    have hne : 8 + code.length ≠ 8 := by omega
    have hless : ¬(code ++ rest).length < 8 + code.length - 8 := by
      rw [List.length_append]
      omega
    rw [container_eq_append, List.append_assoc, validate_header (by omega) rfl, if_neg (by decide), if_neg (by decide),
      if_neg (by decide), if_neg hne, if_neg hless]

theorem bytecodeSection_container (code rest : List Byte) :
    bytecodeSection (.file (8 + code.length) (container code ++ rest)) = code := by
  rw [container_eq_append, List.append_assoc, bytecodeSection_append rfl, Nat.add_sub_cancel_left, List.take_left]

/-- The default LOAD takes a program of any length. -/
theorem load_of_validate {src : LoadSource} (h : validate src = .ok) (s : State) :
    load src s = .next (loadReset (bytecodeSection src), .ok) :=
  loadWith_of_fits h (codeFits_none _) s

/-- Settles O48: LOAD answers OK exactly on such containers, and what it installs is their code. -/
theorem loadIsAllOrNothing : Obligations.LoadIsAllOrNothing := by
  unfold Obligations.LoadIsAllOrNothing
  refine ⟨fun src s => ?_, fun code s hcode => ?_⟩
  · by_cases hv : validate src = .ok
    · obtain ⟨code, rest, hcode, rfl⟩ := validate_eq_ok_iff.mp hv
      refine ⟨_, .ok, load_of_validate hv s, .inr ⟨code, hcode, rfl, ⟨_, rfl, List.take_left' ?_⟩, ?_⟩⟩
      · rw [container_eq_append, List.length_append]
        rfl
      · rw [bytecodeSection_container]
        rfl
    · exact ⟨s, _, loadWith_error hv Params.default s, .inl ⟨rfl, hv⟩⟩
  · have hv := validate_eq_ok_iff.mpr ⟨code, [], hcode, rfl⟩
    have hload := load_of_validate hv s
    rwa [bytecodeSection_container, List.append_nil] at hload

/-- Settles O60: an error does not meet the limit, and an OK installs a code that is within it or not. -/
theorem finiteMaxCodeLenRefusesLongerPrograms : Obligations.FiniteMaxCodeLenRefusesLongerPrograms := by
  unfold Obligations.FiniteMaxCodeLenRefusesLongerPrograms
  intro p src s s' r h
  by_cases hv : validate src = .ok
  · rw [load_of_validate hv] at h
    cases h
    refine ⟨fun hcap => ?_, fun cap hcap => ⟨fun hne => absurd rfl hne, fun _ hle => ?_, fun _ hlt => ?_⟩⟩
    · exact loadWith_of_fits hv (by rw [hcap, codeFits_none]) s
    · exact loadWith_of_fits hv (by rw [hcap]; exact codeFits_some.mpr hle) s
    · rw [loadWith_ok hv, if_neg]
      rw [hcap, codeFits_some]
      exact Nat.not_le.mpr hlt
  · have herr (q : Params) : loadWith q src s = .next (s, validate src) := loadWith_error hv q s
    rw [load, herr] at h
    cases h
    exact ⟨fun _ => herr p, fun cap _ => ⟨fun _ => herr p, fun hok => absurd hok hv, fun hok => absurd hok hv⟩⟩

/-! ## What the host reads -/

theorem RunStatus.code_injective {st st' : RunStatus} (h : st.code = st'.code) : st = st' := by
  have hinv : ∀ t : RunStatus, [RunStatus.continuing, .halted, .failed][t.code.toNat]? = some t := by
    intro t
    cases t <;> rfl
  exact Option.some.inj ((hinv st).symm.trans ((congrArg (fun c => _[c.toNat]?) h).trans (hinv st')))

theorem Reason.code_injective {r r' : Reason} (h : r.code = r'.code) : r = r' := by
  have hinv : ∀ t : Reason, [Reason.none, .ipOutOfRange, .truncatedImmediate, .illegalOpcode, .stackUnderflow, .divByZero,
      .modByZero][t.code.toNat]? = some t := by
    intro t
    cases t <;> rfl
  exact Option.some.inj ((hinv r).symm.trans ((congrArg (fun c => _[c.toNat]?) h).trans (hinv r')))

theorem LoadResult.code_injective {r r' : LoadResult} (h : r.code = r'.code) : r = r' := by
  have hinv : ∀ t : LoadResult, [LoadResult.ok, .unreadable, .tooSmall, .badMagic, .badVersion, .badFlags, .emptyCode,
      .truncated][t.code]? = some t := by
    intro t
    cases t <;> rfl
  exact Option.some.inj ((hinv r).symm.trans ((congrArg (fun c => _[c]?) h).trans (hinv r')))

/-- Settles O59: the codes are those of the table, and its rows are found again by them. -/
theorem loadErrorCodes : Obligations.LoadErrorCodes := by
  unfold Obligations.LoadErrorCodes
  exact ⟨rfl, rfl, rfl, rfl, rfl, rfl, rfl, rfl, fun _ _ => LoadResult.code_injective⟩

/-- The fields of STATUS (R29). -/
theorem statusImage_fields (st : RunStatus) (r : Reason) :
    (statusImage st r).extractLsb' 0 2 = st.code ∧ (statusImage st r).extractLsb' 4 3 = r.code ∧
      (statusImage st r).extractLsb' 2 2 = 0 ∧ (statusImage st r).extractLsb' 7 1 = 0 := by
  cases st <;> cases r <;> decide

theorem statusImageWf_statusImage (st : RunStatus) (r : Reason) : statusImageWf (statusImage st r) = true := by
  obtain ⟨hst, hr, hlow, hhigh⟩ := statusImage_fields st r
  have hst' : (st.code != 0b11) = true := by cases st <;> decide
  have hr' : (r.code != 7) = true := by cases r <;> decide
  simp only [statusImageWf, hst, hr, hlow, hhigh, hst', hr', beq_self_eq_true, Bool.and_self]

/-- Settles O49: the four fields hold the codes and zeros, and the codes tell ST and FR apart. -/
theorem statusRegisterLayout : Obligations.StatusRegisterLayout := by
  unfold Obligations.StatusRegisterLayout
  refine ⟨fun s => ?_, fun s t => ⟨fun h => ?_, fun ⟨hst, hr⟩ => ?_⟩⟩
  · obtain ⟨hst, hr, hlow, hhigh⟩ := statusImage_fields s.status s.reason
    exact ⟨hst, hr, hlow, hhigh, statusImageWf_statusImage _ _⟩
  · obtain ⟨hst, hr, _⟩ := statusImage_fields s.status s.reason
    obtain ⟨hst', hr', _⟩ := statusImage_fields t.status t.reason
    change statusImage s.status s.reason = statusImage t.status t.reason at h
    rw [← h] at hst' hr'
    exact ⟨RunStatus.code_injective (hst.symm.trans hst'), Reason.code_injective (hr.symm.trans hr')⟩
  · rw [statusRegister, statusRegister, hst, hr]

/-- Settles O51: each command replies to what its step, run or load answers. -/
theorem hostCommands : Obligations.HostCommands := by
  unfold Obligations.HostCommands
  refine ⟨fun s s' h => ?_, fun s s' h => ?_, fun src s s' r h => ?_, fun s => ⟨rfl, rfl⟩⟩ <;> rw [command, h] <;> rfl

end Sys2Proof.Machine
end

section
/-! Proofs of what the parameters change (spec/00_scope.md section 4): DIV_OVF_POLICY = fault (decision D3), a finite STACK_CAP
(decision D4), and that the model's own stops (spec/60_exceptions.md R207) are reached only away from the defaults. -/

namespace Sys2Proof.Machine

variable {p : Params} {s t : State}

/-! ## The fault policy -/

/-- The operands that the policy is about: MIN below -1 on top. -/
def OverflowPair (st : List Word) : Prop :=
  ∃ rest a b, st = rest ++ [a, b] ∧ s64 a = minValue ∧ s64 b = -1

/-- On the overflow pair the policy stops the model (R155, R156, R207). -/
theorem divideOp_fault (hp : p.divOvfPolicy = .fault) (h : OverflowPair s.stack) (z : Reason) (w : Word) (f : Word → Word → Word) :
    divideOp p z w f s = .fault .divOverflow := by
  obtain ⟨rest, a, b, hs, ha, hb⟩ := h
  rw [divideOp_overflow hs (divOverflows_iff.mpr ⟨ha, hb⟩), hp]

/-- The policy makes a difference to DIV and MOD on the overflow pair alone. -/
theorem execWith_policy {i : Instr} (h : ¬((i = .div ∨ i = .mod) ∧ OverflowPair s.stack)) (p : Params) (d : DivOvfPolicy) :
    execWith p i s = execWith { p with divOvfPolicy := d } i s := by
  cases i with
  | div | mod => exact divideOp_policy (fun ho => h ⟨by simp, ho⟩) p d _ _ _
  | skip | pushI64 _ | add | halt | sub | mul | pop | swap => rfl

/-- A step that does not fault is the same under either policy. -/
theorem stepWith_policy (hp : p.divOvfPolicy = .fault) (hs : ∀ f, stepWith p s ≠ .fault f) (d : DivOvfPolicy) :
    stepWith p s = stepWith { p with divOvfPolicy := d } s := by
  simp only [stepWith, fetchWith] at hs ⊢
  cases hd : decodeWith p.opcodeMap (remainingCode s) with
  | instr i rest =>
    simp only [hd] at hs
    refine execWith_policy ?_ p d
    rintro ⟨rfl | rfl, ho⟩
    · exact hs _ (divideOp_fault (s := s.advance 1) hp ho _ _ _)
    · exact hs _ (divideOp_fault (s := s.advance 1) hp ho _ _ _)
  | illegal _ | truncated | endOfCode => rfl

/-- Settles O52: the fault on the pair, the lemmas on instructions and steps, and LOAD, which does not read the policy. -/
theorem faultPolicyStopsOnlyAtMinByMinusOne : Obligations.FaultPolicyStopsOnlyAtMinByMinusOne := by
  unfold Obligations.FaultPolicyStopsOnlyAtMinByMinusOne
  intro p s hp
  refine ⟨fun rest a b hs ha hb => ?_, fun i h => execWith_policy h p .wrap, fun h => stepWith_policy hp h .wrap, fun _ => rfl⟩
  have hpair : OverflowPair s.stack := ⟨rest, a, b, hs, ha, hb⟩
  exact ⟨divideOp_fault hp hpair _ _ _, divideOp_fault hp hpair _ _ _⟩

/-! ## A finite stack capacity -/

/-- With its bytes there, PUSH_I64 pushes or is refused, as the capacity says (R130, R140). -/
theorem pushI64With_eq (h : s.ip + 8 ≤ s.code.length) (v : Word) :
    pushI64With p v s =
      if hasRoom p.stackCap s.stack.length then complete ((s.advance 8).setStack (s.stack ++ [v]))
      else .refused .resourceExhausted := by
  rw [pushI64With, if_neg (by omega)]
  rcases withPush_cases p v (s.advance 8) complete with ⟨hroom, hpush⟩ | ⟨hroom, hpush⟩ <;> rw [State.advance_stack] at hroom
  · rw [hpush, hroom, if_pos rfl, State.advance_stack]
  · rw [hpush, hroom, if_neg (by decide)]

/-- Settles O53: PUSH_I64 on either side of the capacity, and no step but a PUSH_I64 with room deepens the stack. -/
theorem finiteStackCapRefusesThePush : Obligations.FiniteStackCapRefusesThePush := by
  unfold Obligations.FiniteStackCapRefusesThePush
  refine fun p cap s hcap hle => ⟨fun v hroom => ⟨fun hfull => ?_, fun hlt => ?_⟩, fun s' h => ?_⟩
  · simp [execWith, pushI64With_eq hroom, hcap, hfull]
  · rw [exec_eq_execWith_default]
    simp [execWith, pushI64With_eq hroom, hcap, hlt]
  · rcases stepWith_depth h with hle' | ⟨v, _, _, hroom, hst⟩
    · omega
    · rw [hcap, hasRoom_some, decide_eq_true_iff] at hroom
      rw [hst, List.length_append, List.length_singleton]
      omega

/-! ## Where the model stops -/

/-- An outcome from a state, that is a stop only where the parameters have one: a fault under the fault policy on the overflow pair,
a refusal under a finite capacity that the depth has reached. -/
def StopsAtParams (p : Params) (s : State) : StepOutcome → Prop
  | .next _ => True
  | .fault _ => p.divOvfPolicy = .fault ∧ OverflowPair s.stack
  | .refused r => r = .resourceExhausted ∧ ∃ cap, p.stackCap = some cap ∧ cap ≤ s.stack.length

/-- A push is refused at a depth that the capacity has reached, and otherwise stops as what follows it. -/
theorem stopsAtParams_withPush {v : Word} {k : State → StepOutcome} (hdepth : t.stack.length ≤ s.stack.length)
    (hk : StopsAtParams p s (k (t.setStack (t.stack ++ [v])))) : StopsAtParams p s (withPush p v t k) := by
  rcases withPush_cases p v t k with ⟨_, h⟩ | ⟨hroom, h⟩ <;> rw [h]
  · exact hk
  · cases hcap : p.stackCap with
    | none => simp [hcap] at hroom
    | some cap =>
      rw [hcap, hasRoom_some, decide_eq_false_iff_not] at hroom
      exact ⟨rfl, cap, hcap, by omega⟩

/-- Two pops stop only as what follows them on a top two. -/
theorem stopsAtParams_withPop2 {k : Word → Word → State → StepOutcome}
    (hk : ∀ rest a b, s.stack = rest ++ [a, b] → StopsAtParams p s (k a b (s.setStack rest))) :
    StopsAtParams p s (withPop2 s k) := by
  rcases withPop2_cases s k with ⟨_, h⟩ | ⟨rest, a, b, hs, h⟩ <;> rw [h]
  · trivial
  · exact hk rest a b hs

theorem length_le_of_eq_append_pair {st rest : List Word} {a b : Word} (h : st = rest ++ [a, b]) : rest.length + 2 ≤ st.length := by
  simp [h]

theorem stopsAtParams_binaryOp (f : Word → Word → Word) : StopsAtParams p s (binaryOp p f s) := by
  refine stopsAtParams_withPop2 fun rest a b hs => stopsAtParams_withPush ?_ trivial
  have hlen := length_le_of_eq_append_pair hs
  rw [State.setStack_stack]
  omega

theorem stopsAtParams_divideOp (z : Reason) (w : Word) (f : Word → Word → Word) : StopsAtParams p s (divideOp p z w f s) := by
  refine stopsAtParams_withPop2 fun rest a b hs => ?_
  have hlen := length_le_of_eq_append_pair hs
  have hpush (v : Word) : StopsAtParams p s (withPush p v (s.setStack rest) complete) :=
    stopsAtParams_withPush (by rw [State.setStack_stack]; omega) trivial
  split
  · trivial
  · split
    · rename_i ho
      split
      · exact hpush w
      · rename_i hp
        obtain ⟨ha, hb⟩ := divOverflows_iff.mp ho
        exact ⟨hp, rest, a, b, hs, ha, hb⟩
    · exact hpush (f a b)

/-- Both pushes of SWAP are at a depth below the one that the stack had (R136). -/
theorem stopsAtParams_swapWith : StopsAtParams p s (swapWith p s) := by
  refine stopsAtParams_withPop2 fun rest a b hs => ?_
  have hlen := length_le_of_eq_append_pair hs
  refine stopsAtParams_withPush ?_ (stopsAtParams_withPush ?_ trivial)
  · rw [State.setStack_stack]
    omega
  · rw [State.setStack_stack, State.setStack_stack, List.length_append, List.length_singleton]
    omega

theorem stopsAtParams_execWith (i : Instr) : StopsAtParams p s (execWith p i s) := by
  cases i with
  | skip | halt => trivial
  | pushI64 v =>
    rw [execWith, pushI64With]
    split
    · trivial
    · exact stopsAtParams_withPush le_rfl trivial
  | pop =>
    rw [execWith, popWith]
    rcases withPop_cases s fun _ s' => complete s' with ⟨_, h⟩ | ⟨_, _, _, h⟩ <;> rw [h] <;> trivial
  | swap => exact stopsAtParams_swapWith
  | add | sub | mul => exact stopsAtParams_binaryOp _
  | div | mod => exact stopsAtParams_divideOp _ _ _

/-- A step stops only where its instruction does: the fetch answers a state and keeps the stack. -/
theorem stopsAtParams_stepWith (p : Params) (s : State) : StopsAtParams p s (stepWith p s) := by
  rcases stepWith_cases p s with ⟨_, _, h⟩ | ⟨_, _, _, _, h⟩ | ⟨_, _, _, _, _, h⟩ | ⟨_, i, _, _, _, _, _, h⟩ <;> rw [h]
  · trivial
  · trivial
  · trivial
  · exact stopsAtParams_execWith (s := s.advance 1) i

theorem stepWith_fault {f : Fault} (h : stepWith p s = .fault f) : p.divOvfPolicy = .fault ∧ OverflowPair s.stack := by
  have hstop := stopsAtParams_stepWith p s
  rwa [h] at hstop

theorem stepWith_refused {r : Refusal} (h : stepWith p s = .refused r) :
    r = .resourceExhausted ∧ ∃ cap, p.stackCap = some cap ∧ cap ≤ s.stack.length := by
  have hstop := stopsAtParams_stepWith p s
  rwa [h] at hstop

theorem loadReply_fault {o : Host.Outcome (State × LoadResult) Fault Refusal} {f : Fault} :
    loadReply o = .fault f ↔ o = .fault f := by
  cases o <;> simp [loadReply]

theorem loadReply_refused {o : Host.Outcome (State × LoadResult) Fault Refusal} {r : Refusal} :
    loadReply o = .refused r ↔ o = .refused r := by
  cases o <;> simp [loadReply]

/-- A command faults only as a step does: LOAD and READ have no fault. -/
theorem commandWith_fault {c : Command} {f : Fault} (h : commandWith p c s = .fault f) : p.divOvfPolicy = .fault := by
  cases c with
  | load src => exact absurd (loadReply_fault.mp h) ((loadWith_stop p src s).1 f)
  | run =>
    obtain ⟨t, ht⟩ := runLoop_fault (silently_fault.mp h)
    exact (stepWith_fault ht).1
  | step => exact (stepWith_fault (silently_fault.mp h)).1
  | read what => cases what <;> cases h

/-- A command is refused as a step is, or as LOAD is under a finite MAX_CODE_LEN. -/
theorem commandWith_refused {c : Command} {r : Refusal} (h : commandWith p c s = .refused r) :
    (r = .resourceExhausted ∧ ∃ cap, p.stackCap = some cap) ∨
      (r = .codeTooLong ∧ (∃ src, c = .load src) ∧ ∃ cap, p.maxCodeLen = some cap) := by
  have hstep {t : State} (ht : stepWith p t = .refused r) : r = .resourceExhausted ∧ ∃ cap, p.stackCap = some cap := by
    obtain ⟨hr, cap, hcap, _⟩ := stepWith_refused ht
    exact ⟨hr, cap, hcap⟩
  cases c with
  | load src =>
    obtain ⟨hr, hcap⟩ := (loadWith_stop p src s).2 r (loadReply_refused.mp h)
    exact .inr ⟨hr, ⟨src, rfl⟩, hcap⟩
  | run =>
    obtain ⟨t, ht⟩ := runLoop_refused (silently_refused.mp h)
    exact .inl (hstep ht)
  | step => exact .inl (hstep (silently_refused.mp h))
  | read what => cases what <;> cases h

/-- Settles O54: the stops of a step by its outcome, and those of a command by the step or the LOAD that it is made of. -/
theorem modelStopsOnlyAwayFromDefaults : Obligations.ModelStopsOnlyAwayFromDefaults := by
  unfold Obligations.ModelStopsOnlyAwayFromDefaults
  exact fun p s => ⟨fun _ => stepWith_fault, fun _ => stepWith_refused, fun _ _ => commandWith_fault, fun _ _ => commandWith_refused⟩

end Sys2Proof.Machine
end
